-- ==== Sys2Proof/Word.lean ====
section
/-! DEFINITION. The word types of the machine (spec/00_scope.md R6, R8; spec/20_memory.md R40). -/

namespace Sys2Proof

/-- A register value, an address, the program counter or an instruction word: 32 bits (R6 `XLEN`, `ILEN`; R20, R24, R40). -/
abbrev Word := BitVec 32

/-- The addressable unit: a byte is 8 bits (R40). -/
abbrev Byte := BitVec 8

/-- The number of a general register, the unsigned 5-bit field that names x0 to x31 (R20, R72). -/
abbrev RegIdx := BitVec 5

end Sys2Proof
end

