-- ==== Sys2Proof/Syntax.lean ====
section
/-! DEFINITION. The instructions of spec/opcode_table.json (spec/30_encoding.md R87): one constructor of
`Instr` a row. Operands are those of R90; an immediate is held at the width of its format (R98), so that
its extension to 32 bits is part of the instruction's meaning. -/

namespace Sys2Proof

/-- The six instruction formats (R71). The shift-immediate split of the I-format (R74, R84) is named apart, as in R87. -/
inductive Format where
  | R | I | IShift | S | B | U | J
  deriving DecidableEq, Repr

/-- The mnemonics of R87, spelled as spec/opcode_table.json spells them. -/
inductive Mnemonic where
  | ADD | SUB | SLL | SLT | SLTU | XOR | SRL | SRA | OR | AND
  | ADDI | SLTI | SLTIU | XORI | ORI | ANDI | SLLI | SRLI | SRAI
  | LB | LH | LW | LBU | LHU
  | SB | SH | SW
  | BEQ | BNE | BLT | BGE | BLTU | BGEU
  | LUI | AUIPC
  | JAL | JALR
  deriving DecidableEq, Repr

/-- An instruction with its operands (R90). -/
inductive Instr where
  -- register-register, R-format (spec/40_reg_reg.md)
  | add (rd rs1 rs2 : RegIdx)
  | sub (rd rs1 rs2 : RegIdx)
  | sll (rd rs1 rs2 : RegIdx)
  | slt (rd rs1 rs2 : RegIdx)
  | sltu (rd rs1 rs2 : RegIdx)
  | xor (rd rs1 rs2 : RegIdx)
  | srl (rd rs1 rs2 : RegIdx)
  | sra (rd rs1 rs2 : RegIdx)
  | or (rd rs1 rs2 : RegIdx)
  | and (rd rs1 rs2 : RegIdx)
  -- register-immediate, I-format (spec/41_reg_imm.md)
  | addi (rd rs1 : RegIdx) (imm : BitVec 12)
  | slti (rd rs1 : RegIdx) (imm : BitVec 12)
  | sltiu (rd rs1 : RegIdx) (imm : BitVec 12)
  | xori (rd rs1 : RegIdx) (imm : BitVec 12)
  | ori (rd rs1 : RegIdx) (imm : BitVec 12)
  | andi (rd rs1 : RegIdx) (imm : BitVec 12)
  | slli (rd rs1 : RegIdx) (shamt : BitVec 5)
  | srli (rd rs1 : RegIdx) (shamt : BitVec 5)
  | srai (rd rs1 : RegIdx) (shamt : BitVec 5)
  -- loads, I-format (spec/42_loads.md)
  | lb (rd rs1 : RegIdx) (imm : BitVec 12)
  | lh (rd rs1 : RegIdx) (imm : BitVec 12)
  | lw (rd rs1 : RegIdx) (imm : BitVec 12)
  | lbu (rd rs1 : RegIdx) (imm : BitVec 12)
  | lhu (rd rs1 : RegIdx) (imm : BitVec 12)
  -- stores, S-format: rs1 the base, rs2 the data (spec/43_stores.md)
  | sb (rs1 rs2 : RegIdx) (imm : BitVec 12)
  | sh (rs1 rs2 : RegIdx) (imm : BitVec 12)
  | sw (rs1 rs2 : RegIdx) (imm : BitVec 12)
  -- branches, B-format: the byte offset imm[12:0], bit 0 zero (spec/44_branches.md)
  | beq (rs1 rs2 : RegIdx) (imm : BitVec 13)
  | bne (rs1 rs2 : RegIdx) (imm : BitVec 13)
  | blt (rs1 rs2 : RegIdx) (imm : BitVec 13)
  | bge (rs1 rs2 : RegIdx) (imm : BitVec 13)
  | bltu (rs1 rs2 : RegIdx) (imm : BitVec 13)
  | bgeu (rs1 rs2 : RegIdx) (imm : BitVec 13)
  -- upper immediate, U-format: the 20-bit field inst[31:12] (spec/45_upper_imm.md)
  | lui (rd : RegIdx) (imm : BitVec 20)
  | auipc (rd : RegIdx) (imm : BitVec 20)
  -- jumps: J-format with the byte offset imm[20:0], bit 0 zero; I-format (spec/46_jumps.md)
  | jal (rd : RegIdx) (imm : BitVec 21)
  | jalr (rd rs1 : RegIdx) (imm : BitVec 12)
  deriving DecidableEq, Repr

/-- The mnemonic of an instruction's row (R87). -/
def Instr.mnemonic : Instr → Mnemonic
  | .add _ _ _ => .ADD
  | .sub _ _ _ => .SUB
  | .sll _ _ _ => .SLL
  | .slt _ _ _ => .SLT
  | .sltu _ _ _ => .SLTU
  | .xor _ _ _ => .XOR
  | .srl _ _ _ => .SRL
  | .sra _ _ _ => .SRA
  | .or _ _ _ => .OR
  | .and _ _ _ => .AND
  | .addi _ _ _ => .ADDI
  | .slti _ _ _ => .SLTI
  | .sltiu _ _ _ => .SLTIU
  | .xori _ _ _ => .XORI
  | .ori _ _ _ => .ORI
  | .andi _ _ _ => .ANDI
  | .slli _ _ _ => .SLLI
  | .srli _ _ _ => .SRLI
  | .srai _ _ _ => .SRAI
  | .lb _ _ _ => .LB
  | .lh _ _ _ => .LH
  | .lw _ _ _ => .LW
  | .lbu _ _ _ => .LBU
  | .lhu _ _ _ => .LHU
  | .sb _ _ _ => .SB
  | .sh _ _ _ => .SH
  | .sw _ _ _ => .SW
  | .beq _ _ _ => .BEQ
  | .bne _ _ _ => .BNE
  | .blt _ _ _ => .BLT
  | .bge _ _ _ => .BGE
  | .bltu _ _ _ => .BLTU
  | .bgeu _ _ _ => .BGEU
  | .lui _ _ => .LUI
  | .auipc _ _ => .AUIPC
  | .jal _ _ => .JAL
  | .jalr _ _ _ => .JALR

/-- The destination register field of the formats that have one (R72, R33); stores and branches have none (R160, R170). -/
def Instr.dest : Instr → Option RegIdx
  | .add rd _ _ => some rd
  | .sub rd _ _ => some rd
  | .sll rd _ _ => some rd
  | .slt rd _ _ => some rd
  | .sltu rd _ _ => some rd
  | .xor rd _ _ => some rd
  | .srl rd _ _ => some rd
  | .sra rd _ _ => some rd
  | .or rd _ _ => some rd
  | .and rd _ _ => some rd
  | .addi rd _ _ => some rd
  | .slti rd _ _ => some rd
  | .sltiu rd _ _ => some rd
  | .xori rd _ _ => some rd
  | .ori rd _ _ => some rd
  | .andi rd _ _ => some rd
  | .slli rd _ _ => some rd
  | .srli rd _ _ => some rd
  | .srai rd _ _ => some rd
  | .lb rd _ _ => some rd
  | .lh rd _ _ => some rd
  | .lw rd _ _ => some rd
  | .lbu rd _ _ => some rd
  | .lhu rd _ _ => some rd
  | .sb _ _ _ => none
  | .sh _ _ _ => none
  | .sw _ _ _ => none
  | .beq _ _ _ => none
  | .bne _ _ _ => none
  | .blt _ _ _ => none
  | .bge _ _ _ => none
  | .bltu _ _ _ => none
  | .bgeu _ _ _ => none
  | .lui rd _ => some rd
  | .auipc rd _ => some rd
  | .jal rd _ => some rd
  | .jalr rd _ _ => some rd

end Sys2Proof
end

