-- ==== Sys2Proof/WellFormed.lean ====
section
/-! DEFINITION. Which terms of `Instr` are instructions of the machine. Register fields and the immediates of
the I, S and U formats admit every value of their width (spec/30_encoding.md R72, R79, R80, R82, R84); the
immediates of the B and J formats have bit 0 zero, for no bit of the word holds it (R81, R83, R98). -/

namespace Sys2Proof

/-- Bit 0 of a B-immediate is always zero (R81, R98). -/
def branchOffsetOk (imm : BitVec 13) : Bool := !imm.getLsbD 0

/-- Bit 0 of a J-immediate is always zero (R83, R98). -/
def jumpOffsetOk (imm : BitVec 21) : Bool := !imm.getLsbD 0

/-- The instruction's operands are ones its encoding admits (R98). -/
def Instr.wellFormed : Instr → Bool
  | .add _ _ _ => true
  | .sub _ _ _ => true
  | .sll _ _ _ => true
  | .slt _ _ _ => true
  | .sltu _ _ _ => true
  | .xor _ _ _ => true
  | .srl _ _ _ => true
  | .sra _ _ _ => true
  | .or _ _ _ => true
  | .and _ _ _ => true
  | .addi _ _ _ => true
  | .slti _ _ _ => true
  | .sltiu _ _ _ => true
  | .xori _ _ _ => true
  | .ori _ _ _ => true
  | .andi _ _ _ => true
  | .slli _ _ _ => true
  | .srli _ _ _ => true
  | .srai _ _ _ => true
  | .lb _ _ _ => true
  | .lh _ _ _ => true
  | .lw _ _ _ => true
  | .lbu _ _ _ => true
  | .lhu _ _ _ => true
  | .sb _ _ _ => true
  | .sh _ _ _ => true
  | .sw _ _ _ => true
  | .beq _ _ imm => branchOffsetOk imm
  | .bne _ _ imm => branchOffsetOk imm
  | .blt _ _ imm => branchOffsetOk imm
  | .bge _ _ imm => branchOffsetOk imm
  | .bltu _ _ imm => branchOffsetOk imm
  | .bgeu _ _ imm => branchOffsetOk imm
  | .lui _ _ => true
  | .auipc _ _ => true
  | .jal _ imm => jumpOffsetOk imm
  | .jalr _ _ _ => true

end Sys2Proof
end

