-- ==== Sys2Proof/Decode.lean ====
section
/-! DEFINITION. Instruction decoding and encoding (spec/30_encoding.md). Fields are cut out of the word once, here
(R72 to R84); `decode` is total on 32-bit words and rejects by name (R90 to R93, R95); `encode` is its inverse (R98);
`opcodeTable` is the table of R87 with its match and mask columns. -/

namespace Sys2Proof

/-! ### Fields and immediates (R72, R79 to R84) -/

/-- The opcode field inst[6:0] (R72). -/
def opcodeField (w : Word) : BitVec 7 := w.extractLsb' 0 7

/-- The destination field inst[11:7] (R72). -/
def rdField (w : Word) : RegIdx := w.extractLsb' 7 5

/-- The selector inst[14:12] (R72). -/
def funct3Field (w : Word) : BitVec 3 := w.extractLsb' 12 3

/-- The first source field inst[19:15] (R72). -/
def rs1Field (w : Word) : RegIdx := w.extractLsb' 15 5

/-- The second source field inst[24:20] (R72). -/
def rs2Field (w : Word) : RegIdx := w.extractLsb' 20 5

/-- The selector inst[31:25] (R72). -/
def funct7Field (w : Word) : BitVec 7 := w.extractLsb' 25 7

/-- The shift amount inst[24:20] of a shift-immediate instruction (R84). -/
def shamtField (w : Word) : BitVec 5 := w.extractLsb' 20 5

/-- The I-immediate before extension, inst[31:20] (R79). -/
def immIField (w : Word) : BitVec 12 := w.extractLsb' 20 12

/-- The S-immediate before extension, inst[31:25] ++ inst[11:7] (R80). -/
def immSField (w : Word) : BitVec 12 := w.extractLsb' 25 7 ++ w.extractLsb' 7 5

/-- The B-immediate before extension, inst[31] ++ inst[7] ++ inst[30:25] ++ inst[11:8] ++ 0 (R81; C1: a byte offset). -/
def immBField (w : Word) : BitVec 13 :=
  w.extractLsb' 31 1 ++ w.extractLsb' 7 1 ++ w.extractLsb' 25 6 ++ w.extractLsb' 8 4 ++ 0#1

/-- The 20 bits inst[31:12] of the U-immediate (R82). -/
def immUField (w : Word) : BitVec 20 := w.extractLsb' 12 20

/-- The J-immediate before extension, inst[31] ++ inst[19:12] ++ inst[20] ++ inst[30:21] ++ 0 (R83). -/
def immJField (w : Word) : BitVec 21 :=
  w.extractLsb' 31 1 ++ w.extractLsb' 12 8 ++ w.extractLsb' 20 1 ++ w.extractLsb' 21 10 ++ 0#1

/-! ### Words that select no instruction (R88, R91 to R93, R95) -/

/-- Why a word (or a string of bytes) is no instruction: the names of R93's table, for diagnosis only. Every one of
them makes the step raise `IllegalInstruction` (R91, R93). -/
inductive Rejection where
  /-- fewer than four bytes: no instruction word (R70) -/
  | truncated
  /-- the all-zero and the all-one word (R91) -/
  | definedIllegal
  /-- inst[1:0] other than 11: a 16-bit compressed instruction (R92, R93) -/
  | compressed
  | fence
  | fenceI
  | ecall
  | ebreak
  | csrrw
  | csrrs
  | csrrc
  | csrrwi
  | csrrsi
  | csrrci
  | mret
  | sret
  | wfi
  | mul
  | mulh
  | mulhsu
  | mulhu
  | div
  | divu
  | rem
  | remu
  /-- LR.W, SC.W, AMO*.W -/
  | atomic
  /-- FLW, FLD -/
  | loadFp
  /-- FSW, FSD -/
  | storeFp
  /-- FMADD, FMSUB, FNMSUB, FNMADD -/
  | fusedFp
  /-- OP-FP -/
  | opFp
  | lwu
  | ld
  | sd
  /-- OP-IMM-32 -/
  | opImm32
  /-- OP-32 -/
  | op32
  /-- SLLI with shamt[5] set, RV64 only (the word of the spec's vector V-ILL) -/
  | slliRv64
  | custom0
  | custom1
  | custom2
  | custom3
  /-- matches no row of R87 and has no standard name in the spec (R88, R91) -/
  | reserved
  deriving DecidableEq, Repr

/-- The name of a multiply or divide word, by funct3 (R93). -/
def rejectMulDiv (w : Word) : Rejection :=
  match funct3Field w with
  | 0b000#3 => .mul
  | 0b001#3 => .mulh
  | 0b010#3 => .mulhsu
  | 0b011#3 => .mulhu
  | 0b100#3 => .div
  | 0b101#3 => .divu
  | 0b110#3 => .rem
  | _ => .remu

/-- The name of a word of the SYSTEM group 1110011 (R27, R93, R219). -/
def rejectSystem (w : Word) : Rejection :=
  if w = 0x00000073#32 then .ecall
  else if w = 0x00100073#32 then .ebreak
  else if w = 0x30200073#32 then .mret
  else if w = 0x10200073#32 then .sret
  else if w = 0x10500073#32 then .wfi
  else match funct3Field w with
    | 0b001#3 => .csrrw
    | 0b010#3 => .csrrs
    | 0b011#3 => .csrrc
    | 0b101#3 => .csrrwi
    | 0b110#3 => .csrrsi
    | 0b111#3 => .csrrci
    | _ => .reserved

/-- The name R93 gives a word that matches no row of R87; `reserved` where it gives none. Where two of its patterns
meet, the more special name is answered (log entry 7). -/
def rejectionOf (w : Word) : Rejection :=
  if w = 0x00000000#32 ∨ w = 0xFFFFFFFF#32 then .definedIllegal
  else if w.extractLsb' 0 2 ≠ 0b11#2 then .compressed
  else match opcodeField w with
    | 0b0001111#7 =>
      match funct3Field w with
      | 0b000#3 => .fence
      | 0b001#3 => .fenceI
      | _ => .reserved
    | 0b1110011#7 => rejectSystem w
    | 0b0110011#7 => if funct7Field w = 0b0000001#7 then rejectMulDiv w else .reserved
    | 0b0101111#7 => .atomic
    | 0b0000111#7 => .loadFp
    | 0b0100111#7 => .storeFp
    | 0b1000011#7 => .fusedFp
    | 0b1000111#7 => .fusedFp
    | 0b1001011#7 => .fusedFp
    | 0b1001111#7 => .fusedFp
    | 0b1010011#7 => .opFp
    | 0b0000011#7 =>
      match funct3Field w with
      | 0b110#3 => .lwu
      | 0b011#3 => .ld
      | _ => .reserved
    | 0b0100011#7 => if funct3Field w = 0b011#3 then .sd else .reserved
    | 0b0010011#7 =>
      if funct3Field w = 0b001#3 ∧ funct7Field w = 0b0000001#7 then .slliRv64 else .reserved
    | 0b0011011#7 => .opImm32
    | 0b0111011#7 => .op32
    | 0b0001011#7 => .custom0
    | 0b0101011#7 => .custom1
    | 0b1011011#7 => .custom2
    | 0b1111011#7 => .custom3
    | _ => .reserved

/-! ### Decoding (R86, R87, R90) -/

/-- The group 0110011, by inst[31:25] and funct3 (R87). -/
def decodeOp (w : Word) : Except Rejection Instr :=
  match funct7Field w, funct3Field w with
  | 0b0000000#7, 0b000#3 => .ok (.add (rdField w) (rs1Field w) (rs2Field w))
  | 0b0100000#7, 0b000#3 => .ok (.sub (rdField w) (rs1Field w) (rs2Field w))
  | 0b0000000#7, 0b001#3 => .ok (.sll (rdField w) (rs1Field w) (rs2Field w))
  | 0b0000000#7, 0b010#3 => .ok (.slt (rdField w) (rs1Field w) (rs2Field w))
  | 0b0000000#7, 0b011#3 => .ok (.sltu (rdField w) (rs1Field w) (rs2Field w))
  | 0b0000000#7, 0b100#3 => .ok (.xor (rdField w) (rs1Field w) (rs2Field w))
  | 0b0000000#7, 0b101#3 => .ok (.srl (rdField w) (rs1Field w) (rs2Field w))
  | 0b0100000#7, 0b101#3 => .ok (.sra (rdField w) (rs1Field w) (rs2Field w))
  | 0b0000000#7, 0b110#3 => .ok (.or (rdField w) (rs1Field w) (rs2Field w))
  | 0b0000000#7, 0b111#3 => .ok (.and (rdField w) (rs1Field w) (rs2Field w))
  | _, _ => .error (rejectionOf w)

/-- The group 0010011, by funct3, and for the shifts inst[31:25] (R84, R87). -/
def decodeOpImm (w : Word) : Except Rejection Instr :=
  match funct3Field w with
  | 0b000#3 => .ok (.addi (rdField w) (rs1Field w) (immIField w))
  | 0b010#3 => .ok (.slti (rdField w) (rs1Field w) (immIField w))
  | 0b011#3 => .ok (.sltiu (rdField w) (rs1Field w) (immIField w))
  | 0b100#3 => .ok (.xori (rdField w) (rs1Field w) (immIField w))
  | 0b110#3 => .ok (.ori (rdField w) (rs1Field w) (immIField w))
  | 0b111#3 => .ok (.andi (rdField w) (rs1Field w) (immIField w))
  | 0b001#3 =>
    match funct7Field w with
    | 0b0000000#7 => .ok (.slli (rdField w) (rs1Field w) (shamtField w))
    | _ => .error (rejectionOf w)
  | _ =>
    match funct7Field w with
    | 0b0000000#7 => .ok (.srli (rdField w) (rs1Field w) (shamtField w))
    | 0b0100000#7 => .ok (.srai (rdField w) (rs1Field w) (shamtField w))
    | _ => .error (rejectionOf w)

/-- The group 0000011, by funct3 (R87, R157). -/
def decodeLoad (w : Word) : Except Rejection Instr :=
  match funct3Field w with
  | 0b000#3 => .ok (.lb (rdField w) (rs1Field w) (immIField w))
  | 0b001#3 => .ok (.lh (rdField w) (rs1Field w) (immIField w))
  | 0b010#3 => .ok (.lw (rdField w) (rs1Field w) (immIField w))
  | 0b100#3 => .ok (.lbu (rdField w) (rs1Field w) (immIField w))
  | 0b101#3 => .ok (.lhu (rdField w) (rs1Field w) (immIField w))
  | _ => .error (rejectionOf w)

/-- The group 0100011, by funct3 (R87, R165). -/
def decodeStore (w : Word) : Except Rejection Instr :=
  match funct3Field w with
  | 0b000#3 => .ok (.sb (rs1Field w) (rs2Field w) (immSField w))
  | 0b001#3 => .ok (.sh (rs1Field w) (rs2Field w) (immSField w))
  | 0b010#3 => .ok (.sw (rs1Field w) (rs2Field w) (immSField w))
  | _ => .error (rejectionOf w)

/-- The group 1100011, by funct3 (R87, R178). -/
def decodeBranch (w : Word) : Except Rejection Instr :=
  match funct3Field w with
  | 0b000#3 => .ok (.beq (rs1Field w) (rs2Field w) (immBField w))
  | 0b001#3 => .ok (.bne (rs1Field w) (rs2Field w) (immBField w))
  | 0b100#3 => .ok (.blt (rs1Field w) (rs2Field w) (immBField w))
  | 0b101#3 => .ok (.bge (rs1Field w) (rs2Field w) (immBField w))
  | 0b110#3 => .ok (.bltu (rs1Field w) (rs2Field w) (immBField w))
  | 0b111#3 => .ok (.bgeu (rs1Field w) (rs2Field w) (immBField w))
  | _ => .error (rejectionOf w)

/-- The group 1100111: funct3 000 alone (R87, R88). -/
def decodeJalr (w : Word) : Except Rejection Instr :=
  match funct3Field w with
  | 0b000#3 => .ok (.jalr (rdField w) (rs1Field w) (immIField w))
  | _ => .error (rejectionOf w)

/-- `Decode(inst)` (R90): the opcode selects the group (R86), the selectors of the group the instruction (R87); a
word that matches no row is rejected by name (R91 to R93). It reads nothing but the word. -/
def decode (w : Word) : Except Rejection Instr :=
  match opcodeField w with
  | 0b0110011#7 => decodeOp w
  | 0b0010011#7 => decodeOpImm w
  | 0b0000011#7 => decodeLoad w
  | 0b0100011#7 => decodeStore w
  | 0b1100011#7 => decodeBranch w
  | 0b0110111#7 => .ok (.lui (rdField w) (immUField w))
  | 0b0010111#7 => .ok (.auipc (rdField w) (immUField w))
  | 0b1101111#7 => .ok (.jal (rdField w) (immJField w))
  | 0b1100111#7 => decodeJalr w
  | _ => .error (rejectionOf w)

/-- The 32-bit word of four bytes, the first at the lowest address (little-endian, R43, R47). -/
def wordOfBytes (b0 b1 b2 b3 : Byte) : Word := b3 ++ b2 ++ b1 ++ b0

/-- The bytes of a word in the order of their addresses (little-endian, R43). -/
def bytesOfWord (w : Word) : List Byte :=
  [w.extractLsb' 0 8, w.extractLsb' 8 8, w.extractLsb' 16 8, w.extractLsb' 24 8]

/-- The decoder on any bytes: the first four are the instruction (R70). -/
def decodeBytes : List Byte → Except Rejection Instr
  | b0 :: b1 :: b2 :: b3 :: _ => decode (wordOfBytes b0 b1 b2 b3)
  | _ => .error .truncated

/-- The instruction the decoder reads from an instruction whose bits, as spec/opcode_table.json numbers them, are `w`;
bits at and above `nbits` are 0. The word is laid out as the hardware stores it (R47) and given to `decodeBytes`. -/
def decodeTableWord (nbits w : Nat) : Option Instr :=
  (decodeBytes (bytesOfWord (BitVec.ofNat 32 (w % 2 ^ nbits)))).toOption

/-! ### Encoding (R73 to R78, R98) -/

/-- R-format, and the shift-immediate split of the I-format with the amount in place of rs2 (R73, R74, R98). -/
def packR (funct7 : BitVec 7) (rs2 rs1 : RegIdx) (funct3 : BitVec 3) (rd : RegIdx) (opcode : BitVec 7) : Word :=
  funct7 ++ rs2 ++ rs1 ++ funct3 ++ rd ++ opcode

/-- I-format (R74, R98). -/
def packI (imm : BitVec 12) (rs1 : RegIdx) (funct3 : BitVec 3) (rd : RegIdx) (opcode : BitVec 7) : Word :=
  imm ++ rs1 ++ funct3 ++ rd ++ opcode

/-- S-format (R75, R98). -/
def packS (imm : BitVec 12) (rs2 rs1 : RegIdx) (funct3 : BitVec 3) (opcode : BitVec 7) : Word :=
  imm.extractLsb' 5 7 ++ rs2 ++ rs1 ++ funct3 ++ imm.extractLsb' 0 5 ++ opcode

/-- B-format (R76, R98). -/
def packB (imm : BitVec 13) (rs2 rs1 : RegIdx) (funct3 : BitVec 3) (opcode : BitVec 7) : Word :=
  imm.extractLsb' 12 1 ++ imm.extractLsb' 5 6 ++ rs2 ++ rs1 ++ funct3 ++ imm.extractLsb' 1 4 ++ imm.extractLsb' 11 1 ++ opcode

/-- U-format (R77, R98). -/
def packU (imm : BitVec 20) (rd : RegIdx) (opcode : BitVec 7) : Word :=
  imm ++ rd ++ opcode

/-- J-format (R78, R98). -/
def packJ (imm : BitVec 21) (rd : RegIdx) (opcode : BitVec 7) : Word :=
  imm.extractLsb' 20 1 ++ imm.extractLsb' 1 10 ++ imm.extractLsb' 11 1 ++ imm.extractLsb' 12 8 ++ rd ++ opcode

/-- The word of an instruction (R98, with the fixed bits of R87). -/
def encode : Instr → Word
  | .add rd rs1 rs2 => packR 0b0000000#7 rs2 rs1 0b000#3 rd 0b0110011#7
  | .sub rd rs1 rs2 => packR 0b0100000#7 rs2 rs1 0b000#3 rd 0b0110011#7
  | .sll rd rs1 rs2 => packR 0b0000000#7 rs2 rs1 0b001#3 rd 0b0110011#7
  | .slt rd rs1 rs2 => packR 0b0000000#7 rs2 rs1 0b010#3 rd 0b0110011#7
  | .sltu rd rs1 rs2 => packR 0b0000000#7 rs2 rs1 0b011#3 rd 0b0110011#7
  | .xor rd rs1 rs2 => packR 0b0000000#7 rs2 rs1 0b100#3 rd 0b0110011#7
  | .srl rd rs1 rs2 => packR 0b0000000#7 rs2 rs1 0b101#3 rd 0b0110011#7
  | .sra rd rs1 rs2 => packR 0b0100000#7 rs2 rs1 0b101#3 rd 0b0110011#7
  | .or rd rs1 rs2 => packR 0b0000000#7 rs2 rs1 0b110#3 rd 0b0110011#7
  | .and rd rs1 rs2 => packR 0b0000000#7 rs2 rs1 0b111#3 rd 0b0110011#7
  | .addi rd rs1 imm => packI imm rs1 0b000#3 rd 0b0010011#7
  | .slti rd rs1 imm => packI imm rs1 0b010#3 rd 0b0010011#7
  | .sltiu rd rs1 imm => packI imm rs1 0b011#3 rd 0b0010011#7
  | .xori rd rs1 imm => packI imm rs1 0b100#3 rd 0b0010011#7
  | .ori rd rs1 imm => packI imm rs1 0b110#3 rd 0b0010011#7
  | .andi rd rs1 imm => packI imm rs1 0b111#3 rd 0b0010011#7
  | .slli rd rs1 shamt => packR 0b0000000#7 shamt rs1 0b001#3 rd 0b0010011#7
  | .srli rd rs1 shamt => packR 0b0000000#7 shamt rs1 0b101#3 rd 0b0010011#7
  | .srai rd rs1 shamt => packR 0b0100000#7 shamt rs1 0b101#3 rd 0b0010011#7
  | .lb rd rs1 imm => packI imm rs1 0b000#3 rd 0b0000011#7
  | .lh rd rs1 imm => packI imm rs1 0b001#3 rd 0b0000011#7
  | .lw rd rs1 imm => packI imm rs1 0b010#3 rd 0b0000011#7
  | .lbu rd rs1 imm => packI imm rs1 0b100#3 rd 0b0000011#7
  | .lhu rd rs1 imm => packI imm rs1 0b101#3 rd 0b0000011#7
  | .sb rs1 rs2 imm => packS imm rs2 rs1 0b000#3 0b0100011#7
  | .sh rs1 rs2 imm => packS imm rs2 rs1 0b001#3 0b0100011#7
  | .sw rs1 rs2 imm => packS imm rs2 rs1 0b010#3 0b0100011#7
  | .beq rs1 rs2 imm => packB imm rs2 rs1 0b000#3 0b1100011#7
  | .bne rs1 rs2 imm => packB imm rs2 rs1 0b001#3 0b1100011#7
  | .blt rs1 rs2 imm => packB imm rs2 rs1 0b100#3 0b1100011#7
  | .bge rs1 rs2 imm => packB imm rs2 rs1 0b101#3 0b1100011#7
  | .bltu rs1 rs2 imm => packB imm rs2 rs1 0b110#3 0b1100011#7
  | .bgeu rs1 rs2 imm => packB imm rs2 rs1 0b111#3 0b1100011#7
  | .lui rd imm => packU imm rd 0b0110111#7
  | .auipc rd imm => packU imm rd 0b0010111#7
  | .jal rd imm => packJ imm rd 0b1101111#7
  | .jalr rd rs1 imm => packI imm rs1 0b000#3 rd 0b1100111#7

/-! ### The opcode table (R87) -/

/-- A row of R87: the word selects it when its bits under `mask` are those of `pattern`. -/
structure OpcodeRow where
  mnemonic : Mnemonic
  format : Format
  pattern : Word
  mask : Word
  deriving DecidableEq, Repr

/-- An instruction word selects a row exactly when all the fixed bits of the row match (R87). -/
def OpcodeRow.selects (r : OpcodeRow) (w : Word) : Bool := w &&& r.mask == r.pattern

/-- The table of R87, row by row: a second, table-shaped account of which words are which instruction, stated to
agree with `decode`. -/
def opcodeTable : List OpcodeRow := [
  ⟨.ADD, .R, 0x00000033#32, 0xFE00707F#32⟩,
  ⟨.SUB, .R, 0x40000033#32, 0xFE00707F#32⟩,
  ⟨.SLL, .R, 0x00001033#32, 0xFE00707F#32⟩,
  ⟨.SLT, .R, 0x00002033#32, 0xFE00707F#32⟩,
  ⟨.SLTU, .R, 0x00003033#32, 0xFE00707F#32⟩,
  ⟨.XOR, .R, 0x00004033#32, 0xFE00707F#32⟩,
  ⟨.SRL, .R, 0x00005033#32, 0xFE00707F#32⟩,
  ⟨.SRA, .R, 0x40005033#32, 0xFE00707F#32⟩,
  ⟨.OR, .R, 0x00006033#32, 0xFE00707F#32⟩,
  ⟨.AND, .R, 0x00007033#32, 0xFE00707F#32⟩,
  ⟨.ADDI, .I, 0x00000013#32, 0x0000707F#32⟩,
  ⟨.SLTI, .I, 0x00002013#32, 0x0000707F#32⟩,
  ⟨.SLTIU, .I, 0x00003013#32, 0x0000707F#32⟩,
  ⟨.XORI, .I, 0x00004013#32, 0x0000707F#32⟩,
  ⟨.ORI, .I, 0x00006013#32, 0x0000707F#32⟩,
  ⟨.ANDI, .I, 0x00007013#32, 0x0000707F#32⟩,
  ⟨.SLLI, .IShift, 0x00001013#32, 0xFE00707F#32⟩,
  ⟨.SRLI, .IShift, 0x00005013#32, 0xFE00707F#32⟩,
  ⟨.SRAI, .IShift, 0x40005013#32, 0xFE00707F#32⟩,
  ⟨.LB, .I, 0x00000003#32, 0x0000707F#32⟩,
  ⟨.LH, .I, 0x00001003#32, 0x0000707F#32⟩,
  ⟨.LW, .I, 0x00002003#32, 0x0000707F#32⟩,
  ⟨.LBU, .I, 0x00004003#32, 0x0000707F#32⟩,
  ⟨.LHU, .I, 0x00005003#32, 0x0000707F#32⟩,
  ⟨.SB, .S, 0x00000023#32, 0x0000707F#32⟩,
  ⟨.SH, .S, 0x00001023#32, 0x0000707F#32⟩,
  ⟨.SW, .S, 0x00002023#32, 0x0000707F#32⟩,
  ⟨.BEQ, .B, 0x00000063#32, 0x0000707F#32⟩,
  ⟨.BNE, .B, 0x00001063#32, 0x0000707F#32⟩,
  ⟨.BLT, .B, 0x00004063#32, 0x0000707F#32⟩,
  ⟨.BGE, .B, 0x00005063#32, 0x0000707F#32⟩,
  ⟨.BLTU, .B, 0x00006063#32, 0x0000707F#32⟩,
  ⟨.BGEU, .B, 0x00007063#32, 0x0000707F#32⟩,
  ⟨.LUI, .U, 0x00000037#32, 0x0000007F#32⟩,
  ⟨.AUIPC, .U, 0x00000017#32, 0x0000007F#32⟩,
  ⟨.JAL, .J, 0x0000006F#32, 0x0000007F#32⟩,
  ⟨.JALR, .I, 0x00000067#32, 0x0000707F#32⟩
]

end Sys2Proof
end

