-- ==== Sys2Proof/Config.lean ====
section
/-! DEFINITION. What the spec leaves to the implementation (spec/00_scope.md R6, spec/92_eei_decisions.md D8,
D34, D36): the shape of the memory map, and the one choice of the open parameters that `State.reset` uses.
The parameters themselves are arguments of the model: `State` holds those a step reads and `State.launch`
takes the others, so that a statement about every state holds for every choice (log entry 1). -/

namespace Sys2Proof

/-- What a region of the memory map is for (R42): program text, or plain data memory. -/
inductive RegionKind where
  | code
  | data
  deriving DecidableEq, Repr

/-- One range of existing addresses, `base .. base + size - 1` (R6 `MEM`, `CODE`). -/
structure Region where
  base : Nat
  size : Nat
  kind : RegionKind
  deriving DecidableEq, Repr

namespace Config

/-- What a byte of memory that no cell lists reads as. The contents of memory at launch are open (R32, D34):
DESIGN CHOICE, unsafe for claims about `State.reset` alone (log entry 4). -/
def unlistedByte : Byte := 0x00#8

/-- `MEM` and `CODE` after `State.reset`: the example values of R42. DESIGN CHOICE, unsafe (log entry 2). -/
def exampleMap : List Region :=
  [⟨0x0000, 0x1000, .code⟩, ⟨0x1000, 0x1000, .data⟩]

/-- `RESET_PC` of `State.reset`: the example value of R42. DESIGN CHOICE, unsafe (log entry 2). -/
def exampleResetPc : Word := 0x00000000#32

/-- `END_PC` after `State.reset`: the value of the spec's vector V-STEP. DESIGN CHOICE, unsafe (log entry 2). -/
def exampleEndPc : Word := 0x00002000#32

/-- x1 to x31 after `State.reset`. `INIT_X` is open (R32, D34): DESIGN CHOICE zero, unsafe (log entry 3). -/
def exampleRegs : Vector Word 31 := Vector.replicate 31 0#32

end Config

end Sys2Proof
end

