-- ==== Sys2Proof/Machine/State.lean ====
section
/-! DEFINITION. The machine's state, the reasons a step can stop, and the state after reset (spec/10_state.md,
spec/60_exceptions.md R210, spec/70_reset_and_hazards.md R250, R254). -/

namespace Sys2Proof.Machine

/-- The contents of memory: the bytes that differ from `Config.unlistedByte`, by address (R30, R40). Equal memories are
equal lists while the canonical form `Memory.wf` holds, which every operation of Machine/Memory.lean keeps. -/
abbrev Memory := List Host.Cell

/-- A state (R31): the general registers x1 to x31 (x0 is not stored, R21), the program counter and memory; and
beside them the parameters of the step relation, which no step changes (R6, R31): `map` is `MEM` and `CODE`, `endPc` is
`END_PC` (log entry 1). -/
structure State where
  /-- x1 to x31: register i is at place i - 1 (R20, R31) -/
  regs : Vector Word 31
  /-- the address of the instruction being executed (R24) -/
  pc : Word
  /-- the bytes of memory (R30) -/
  mem : Memory
  /-- `MEM` and `CODE` (R6, R42) -/
  map : List Region
  /-- `END_PC` (R6, R254) -/
  endPc : Word
  deriving DecidableEq, Repr

/-- The seven faults of R210, with what each records. A fault ends the run (R14, R211); it is safe where a real hart
would trap to a handler or complete the access, because it claims nothing of what happens next (D2). -/
inductive Fault where
  /-- raised by a taken branch, JAL or JALR whose target is not a multiple of 4, and by a step whose pc is not one
  (R171, R202, R15): the pc of the branch or jump, and the target. Safe. -/
  | instrAddrMisaligned (pc target : Word)
  /-- raised by the fetch of any instruction outside `CODE` (R47): the pc. Safe. -/
  | instrAccessFault (pc : Word)
  /-- raised by decode on a word that matches no row of R87 (R91): the pc and the word. Safe. -/
  | illegalInstruction (pc inst : Word)
  /-- raised by LH, LHU, LW at an address that is no multiple of the size (R44, R156): the pc and the address. Safe. -/
  | loadAddrMisaligned (pc addr : Word)
  /-- raised by a load with a byte outside `MEM` (R42, R156): the pc and the address. Safe. -/
  | loadAccessFault (pc addr : Word)
  /-- raised by SH, SW at an address that is no multiple of the size (R44, R164): the pc and the address. Safe. -/
  | storeAddrMisaligned (pc addr : Word)
  /-- raised by a store with a byte outside `MEM` or inside `CODE` (R42, R60, R164): the pc and the address. Safe. -/
  | storeAccessFault (pc addr : Word)
  deriving DecidableEq, Repr

/-- Why a step has no meaning. -/
inductive Refusal where
  /-- raised by `exec` for an instruction that has no meaning yet (none is left in this model). Safe. -/
  | notModelled (mnemonic : String)
  /-- raised by `step` when the pc equals `END_PC`: the run has ended and there is no step (R15, R254). It is the
  successful end of a run and no instruction is refused by it (log entry 5). Safe. -/
  | runEnded
  deriving DecidableEq, Repr

/-- What one step or one instruction answers. -/
abbrev Outcome := Host.Outcome State Fault Refusal

/-- The state after reset. R32 and R250 leave every component but x0 open (`INIT_X`, `RESET_PC`, `INIT_MEM`, `MEM`, `CODE`,
`END_PC`); the values are Config's choice (log entries 2, 3, 4), and `State.launch` gives every other launch state. -/
def State.reset : State where
  regs := Config.exampleRegs
  pc := Config.exampleResetPc
  mem := []
  map := Config.exampleMap
  endPc := Config.exampleEndPc

end Sys2Proof.Machine
end

