-- ==== Sys2Proof/Machine/Flags.lean ====
section
/-! DEFINITION. The machine has no flags, condition codes or predicate registers (spec/10_state.md R26): what stands here
is what takes their place, the comparisons whose result a set instruction writes to rd as 1 or 0 (spec/40_reg_reg.md
R121 (b)) and the conditions a branch tests (spec/44_branches.md R178). -/

namespace Sys2Proof.Machine

/-- `a <s b` (R9). -/
def lessSigned (a b : Word) : Bool := a.slt b

/-- `a <u b` (R9). -/
def lessUnsigned (a b : Word) : Bool := a.ult b

/-- The 32-bit value 1 or 0 of a comparison (R121 (b)). -/
def boolWord (c : Bool) : Word := if c then 1#32 else 0#32

/-- The value of SLT and SLTI (R113, R131). -/
def setLessSigned (a b : Word) : Word := boolWord (lessSigned a b)

/-- The value of SLTU and SLTIU (R114, R132). -/
def setLessUnsigned (a b : Word) : Word := boolWord (lessUnsigned a b)

/-- The condition of BEQ (R178). -/
def condEq (a b : Word) : Bool := a == b

/-- The condition of BNE (R178). -/
def condNe (a b : Word) : Bool := !(a == b)

/-- The condition of BLT (R178). -/
def condLt (a b : Word) : Bool := lessSigned a b

/-- The condition of BGE (R178). -/
def condGe (a b : Word) : Bool := !lessSigned a b

/-- The condition of BLTU (R178). -/
def condLtu (a b : Word) : Bool := lessUnsigned a b

/-- The condition of BGEU (R178). -/
def condGeu (a b : Word) : Bool := !lessUnsigned a b

end Sys2Proof.Machine
end

