-- ==== Sys2Proof/Machine/Memory.lean ====
section
/-! DEFINITION. Memory as an array of bytes (spec/20_memory.md R40, R43, R48, R52): the canonical form, reading and
writing one byte, and the little-endian composition of wider values, decided here once. No permission and no
alignment is checked here: that is Machine/Ops.lean. -/

namespace Sys2Proof.Machine

/-- The canonical form: addresses strictly rising, and no cell equal to what an unlisted address reads as. -/
abbrev Memory.wf (m : Memory) : Prop :=
  m.Pairwise (fun c d => c.1 < d.1) ∧ ∀ c ∈ m, c.2 ≠ Config.unlistedByte

/-- The byte at an address; an unlisted address reads as `Config.unlistedByte`. Reading has no side effect (R45, R50). -/
def Memory.read : Memory → Nat → Byte
  | [], _ => Config.unlistedByte
  | (k, b) :: m, a => if k = a then b else Memory.read m a

/-- The memory without a cell at the address. -/
def Memory.erase (m : Memory) (a : Nat) : Memory := m.filter fun c => c.1 != a

/-- The memory with a cell put before the first cell of a higher address. -/
def Memory.insert : Memory → Nat → Byte → Memory
  | [], a, b => [(a, b)]
  | (k, v) :: m, a, b => if a < k then (a, b) :: (k, v) :: m else (k, v) :: Memory.insert m a b

/-- The memory with one byte written: every other address keeps its byte (R46, R50). -/
def Memory.write (m : Memory) (a : Nat) (b : Byte) : Memory :=
  if b = Config.unlistedByte then m.erase a else (m.erase a).insert a b

/-- The memory with bytes written at consecutive addresses from `a` on. -/
def Memory.writeBytes : Memory → Nat → List Byte → Memory
  | m, _, [] => m
  | m, a, b :: bs => Memory.writeBytes (m.write a b) (a + 1) bs

/-- The memory with a list of (address, byte) pairs written in order. -/
def Memory.ofCells (cells : List Host.Cell) : Memory :=
  cells.foldl (fun m c => m.write c.1 c.2) []

/-- The three widths of a data access (R48). -/
inductive AccessSize where
  | byte
  | half
  | word
  deriving DecidableEq, Repr

/-- How many bytes an access moves, the n of R45 and R46. -/
abbrev AccessSize.bytes : AccessSize → Nat
  | .byte => 1
  | .half => 2
  | .word => 4

/-- How many bits an access moves, the 8n of R45 and R46. -/
abbrev AccessSize.bits : AccessSize → Nat
  | .byte => 8
  | .half => 16
  | .word => 32

/-- The value of an access, its least significant byte at the lowest address (R43, R45). -/
def Memory.readSized (m : Memory) (a : Nat) : (sz : AccessSize) → BitVec sz.bits
  | .byte => m.read a
  | .half => m.read (a + 1) ++ m.read a
  | .word => m.read (a + 3) ++ m.read (a + 2) ++ m.read (a + 1) ++ m.read a

/-- The bytes of a value in the order of their addresses: byte i is v[8i+7:8i] (R43, R46). -/
def bytesLE (sz : AccessSize) (v : BitVec sz.bits) : List Byte :=
  (List.range sz.bytes).map fun i => v.extractLsb' (8 * i) 8

/-- The memory with a value stored at consecutive addresses, little-endian (R43, R46). -/
def Memory.writeSized (m : Memory) (a : Nat) (sz : AccessSize) (v : BitVec sz.bits) : Memory :=
  m.writeBytes a (bytesLE sz v)

end Sys2Proof.Machine
end

