-- ==== Sys2Proof/Machine/Ops.lean ====
section
/-! DEFINITION. The named operations over registers, pc and memory that every meaning is built from (spec/00_scope.md
R12 to R14; spec/20_memory.md R42 to R47), raising a fault (spec/60_exceptions.md R210, R211), and the launch state
(spec/70_reset_and_hazards.md R250). -/

namespace Sys2Proof.Machine

/-! ### Registers and pc -/

/-- `x[i]`: x0 always reads 0 (R12, R21). -/
def State.reg (s : State) (r : RegIdx) : Word :=
  if r = 0#5 then 0#32 else s.regs[r.toNat - 1]'(by have := r.isLt; omega)

/-- `x[i] <- v`: a write to x0 does nothing (R12, R21). -/
def State.setReg (s : State) (r : RegIdx) (v : Word) : State :=
  { s with regs := if r = 0#5 then s.regs else s.regs.set (r.toNat - 1) v (by have := r.isLt; omega) }

/-- `pc <- t` (R12). -/
def State.setPc (s : State) (t : Word) : State := { s with pc := t }

/-- The state with another memory. -/
def State.setMem (s : State) (m : Memory) : State := { s with mem := m }

/-- The address of the next instruction, modulo 2^32 (R25, D7). -/
def State.nextPc (s : State) : Word := s.pc + 4#32

/-! ### Faults -/

/-- Taking an exception: `raise F(info)` (R14). There is no trap mechanism (R211): nothing is saved, no mode changes and
control goes nowhere; the step ends in the fault and the state stays as it was before the instruction (R215). There is
no return from a trap (R217). -/
def raise (f : Fault) : Outcome := .fault f

/-- The pc that a fault records (R210). -/
def Fault.pcOf : Fault → Word
  | .instrAddrMisaligned pc _ => pc
  | .instrAccessFault pc => pc
  | .illegalInstruction pc _ => pc
  | .loadAddrMisaligned pc _ => pc
  | .loadAccessFault pc _ => pc
  | .storeAddrMisaligned pc _ => pc
  | .storeAccessFault pc _ => pc

/-- The exception code of the standard privileged architecture, for cross-reference only (R210): no state holds it. -/
def Fault.standardCode : Fault → Nat
  | .instrAddrMisaligned _ _ => 0
  | .instrAccessFault _ => 1
  | .illegalInstruction _ _ => 2
  | .loadAddrMisaligned _ _ => 4
  | .loadAccessFault _ _ => 5
  | .storeAddrMisaligned _ _ => 6
  | .storeAccessFault _ _ => 7

/-! ### The memory map (R42) -/

/-- The address lies in the region. -/
def regionHas (r : Region) (a : Nat) : Bool := decide (r.base ≤ a ∧ a < r.base + r.size)

/-- The address is in `MEM`: a 32-bit address of some region (R6, R42). -/
def State.inMem (s : State) (a : Nat) : Bool := decide (a < 2 ^ 32) && s.map.any fun r => regionHas r a

/-- The address is in `CODE`: a 32-bit address of a code region, so that `CODE ⊆ MEM` (R6, R42). -/
def State.inCode (s : State) (a : Nat) : Bool :=
  decide (a < 2 ^ 32) && s.map.any fun r => decide (r.kind = .code) && regionHas r a

/-- Every byte of an access of n bytes may be loaded: it is in `MEM` (R42). -/
def State.readable (s : State) (a n : Nat) : Bool := (List.range n).all fun i => s.inMem (a + i)

/-- Every byte of an access of n bytes may be stored: it is in `MEM` and not in `CODE` (R42, R60). -/
def State.writable (s : State) (a n : Nat) : Bool :=
  (List.range n).all fun i => s.inMem (a + i) && !s.inCode (a + i)

/-- Every byte of an access of n bytes may be fetched: it is in `CODE` (R42). -/
def State.executable (s : State) (a n : Nat) : Bool := (List.range n).all fun i => s.inCode (a + i)

/-! ### Memory access (R13, R45 to R47) -/

/-- `MemRead(addr, n)`: the misalignment test first, then the access test, then the bytes little-endian (R45, R214). -/
def memRead (s : State) (addr : Word) (sz : AccessSize) : Except Fault (BitVec sz.bits) :=
  if addr.toNat % sz.bytes ≠ 0 then .error (.loadAddrMisaligned s.pc addr)
  else if s.readable addr.toNat sz.bytes = false then .error (.loadAccessFault s.pc addr)
  else .ok (s.mem.readSized addr.toNat sz)

/-- `MemWrite(addr, n, v)`: all n bytes are written or none is (R46, R214). -/
def memWrite (s : State) (addr : Word) (sz : AccessSize) (v : BitVec sz.bits) : Except Fault State :=
  if addr.toNat % sz.bytes ≠ 0 then .error (.storeAddrMisaligned s.pc addr)
  else if s.writable addr.toNat sz.bytes = false then .error (.storeAccessFault s.pc addr)
  else .ok (s.setMem (s.mem.writeSized addr.toNat sz v))

/-- `Fetch(addr)` at the pc: the instruction word, little-endian (R47). -/
def fetch (s : State) : Except Fault Word :=
  if s.executable s.pc.toNat 4 = false then .error (.instrAccessFault s.pc)
  else .ok (s.mem.readSized s.pc.toNat .word)

/-! ### How an instruction ends -/

/-- `x[rd] <- v; pc <- pc + 4` (R25, R120, R140, R150). -/
def retire (s : State) (rd : RegIdx) (v : Word) : Outcome := .next ((s.setReg rd v).setPc s.nextPc)

/-- `pc <- target`, from the state `t` that holds the instruction's other writes; a target that is no multiple of 4
raises the fault on the instruction itself and nothing is written (R171, R202). -/
def jumpTo (s t : State) (target : Word) : Outcome :=
  if target.extractLsb' 0 2 ≠ 0b00#2 then raise (.instrAddrMisaligned s.pc target) else .next (t.setPc target)

/-! ### Launch (R32, R250, R252) -/

/-- The arguments of the model (R6, R250). -/
structure LaunchArgs where
  /-- `MEM` and `CODE` -/
  map : List Region
  /-- `RESET_PC` -/
  resetPc : Word
  /-- `END_PC` -/
  endPc : Word
  /-- `INIT_X[1..31]` -/
  initX : Vector Word 31
  /-- `INIT_MEM`, the program image among it (R252 (a)): any (address, byte) pairs -/
  initMem : List Host.Cell
  deriving DecidableEq, Repr

/-- The launch state of R250: pc = `RESET_PC`, x[i] = `INIT_X[i]`, mem = `INIT_MEM` (on the addresses of `MEM`). -/
def State.launch (l : LaunchArgs) : State :=
  let s : State := { regs := l.initX, pc := l.resetPc, mem := [], map := l.map, endPc := l.endPc }
  s.setMem (Memory.ofCells (l.initMem.filter fun c => s.inMem c.1))

/-- The constraints of R250 on the arguments: `RESET_PC` and `END_PC` are multiples of 4 and `RESET_PC .. RESET_PC+3` is in
`CODE` (`CODE ⊆ MEM` holds of every map). Arguments that violate them give no launch state (U8); the step is total on
the state they give nevertheless. -/
def LaunchArgs.ok (l : LaunchArgs) : Bool :=
  l.resetPc.extractLsb' 0 2 == 0b00#2 && l.endPc.extractLsb' 0 2 == 0b00#2
    && (State.launch l).executable l.resetPc.toNat 4

/-- An instruction word put where the next fetch reads it: its bytes at the pc, a code region over them where the map
has none, and `END_PC` moved off the pc where it stood there (log entries 6, 11). It stands for the loading of a program,
which the spec leaves outside the machine (R252 (a)). -/
def placeInstruction (s : State) (w : Word) : State :=
  { s with
    mem := s.mem.writeSized s.pc.toNat .word w
    map := if s.executable s.pc.toNat 4 then s.map else ⟨s.pc.toNat, 4, .code⟩ :: s.map
    endPc := if s.endPc = s.pc then s.nextPc else s.endPc }

end Sys2Proof.Machine
end

