-- ==== Sys2Proof/Machine/Operands.lean ====
section
/-! DEFINITION. The operand forms (spec/00_scope.md R10, R11; spec/30_encoding.md R79 to R84): how each immediate becomes a
32-bit value, the shifts and their amounts, the effective address, the branch and jump targets, and the shapes that the
instructions of a family share. -/

namespace Sys2Proof.Machine

/-! ### Immediates as 32-bit values -/

/-- `sext_32` of a 12-bit I- or S-immediate (R79, R80). -/
def signExt12 (imm : BitVec 12) : Word := imm.signExtend 32

/-- `immB`, the sign-extended byte offset of a branch (R81). -/
def signExt13 (imm : BitVec 13) : Word := imm.signExtend 32

/-- `immJ`, the sign-extended byte offset of JAL (R83). -/
def signExt21 (imm : BitVec 21) : Word := imm.signExtend 32

/-- `immU`: the 20 field bits above twelve zeros (R82). -/
def upperImm (imm : BitVec 20) : Word := imm ++ 0x000#12

/-! ### Shifts (R11, R121 (c), (d)) -/

/-- The amount of a register shift: `u(v[4:0])`; bits 31 to 5 are ignored (R121 (c)). -/
def shiftAmount (v : Word) : Nat := (v.extractLsb' 0 5).toNat

/-- `v << n`: zeros enter at the bottom (R11). -/
def shiftLeft (v : Word) (n : Nat) : Word := v <<< n

/-- `v >>u n`: zeros enter at the top (R11). -/
def shiftRightLogical (v : Word) (n : Nat) : Word := v >>> n

/-- `v >>s n`: copies of bit 31 enter at the top (R11). -/
def shiftRightArith (v : Word) (n : Nat) : Word := v.sshiftRight n

/-! ### Addresses and targets, modulo 2^32 (D7) -/

/-- The effective address of a load or store: `x[rs1] + sext_32(imm)` (R51, R150, R160). -/
def effAddr (s : State) (rs1 : RegIdx) (imm : BitVec 12) : Word := s.reg rs1 + signExt12 imm

/-- The target of a taken branch: `pc + immB`, from the branch's own address (R170; C1: not scaled). -/
def branchTarget (s : State) (imm : BitVec 13) : Word := s.pc + signExt13 imm

/-- The target of JAL: `pc + immJ` (R200). -/
def jalTarget (s : State) (imm : BitVec 21) : Word := s.pc + signExt21 imm

/-- The target of JALR: `x[rs1] + sext_32(imm)` with bit 0 cleared (R201). -/
def jalrTarget (s : State) (rs1 : RegIdx) (imm : BitVec 12) : Word :=
  (s.reg rs1 + signExt12 imm).extractLsb' 1 31 ++ 0#1

/-! ### The shapes of the families -/

/-- `x[rd] <- f(x[rs1], x[rs2]); pc <- pc + 4` (R120). -/
def execRegReg (f : Word → Word → Word) (rd rs1 rs2 : RegIdx) (s : State) : Outcome :=
  retire s rd (f (s.reg rs1) (s.reg rs2))

/-- `x[rd] <- f(x[rs1], sext_32(imm)); pc <- pc + 4` (R140). -/
def execRegImm (f : Word → Word → Word) (rd rs1 : RegIdx) (imm : BitVec 12) (s : State) : Outcome :=
  retire s rd (f (s.reg rs1) (signExt12 imm))

/-- `x[rd] <- f(x[rs1], shamt); pc <- pc + 4` (R141). -/
def execShiftImm (f : Word → Nat → Word) (rd rs1 : RegIdx) (shamt : BitVec 5) (s : State) : Outcome :=
  retire s rd (f (s.reg rs1) shamt.toNat)

/-- `x[rd] <- ext(MemRead(addr, n)); pc <- pc + 4`, or the fault of the access (R150, R156). -/
def execLoad (sz : AccessSize) (ext : BitVec sz.bits → Word) (rd rs1 : RegIdx) (imm : BitVec 12) (s : State) : Outcome :=
  match memRead s (effAddr s rs1 imm) sz with
  | .error f => raise f
  | .ok v => retire s rd (ext v)

/-- `MemWrite(addr, n, x[rs2][8n-1:0]); pc <- pc + 4`, or the fault of the access (R160, R164). -/
def execStore (sz : AccessSize) (rs1 rs2 : RegIdx) (imm : BitVec 12) (s : State) : Outcome :=
  match memWrite s (effAddr s rs1 imm) sz ((s.reg rs2).extractLsb' 0 sz.bits) with
  | .error f => raise f
  | .ok t => .next (t.setPc s.nextPc)

/-- A branch: to the target when the condition on x[rs1] and x[rs2] holds, else to `pc + 4` (R170, R171). -/
def execBranch (cond : Word → Word → Bool) (rs1 rs2 : RegIdx) (imm : BitVec 13) (s : State) : Outcome :=
  if cond (s.reg rs1) (s.reg rs2) then jumpTo s s (branchTarget s imm) else .next (s.setPc s.nextPc)

/-- A jump to a target with the return address in rd (R200, R201). -/
def execJump (rd : RegIdx) (target : Word) (s : State) : Outcome :=
  jumpTo s (s.setReg rd s.nextPc) target

end Sys2Proof.Machine
end

