-- ==== Sys2Proof/Machine/Branches.lean ====
section
/-! DEFINITION. The six conditional branches (spec/44_branches.md R170 to R179). -/

namespace Sys2Proof.Machine

/-- BEQ: taken when x[rs1] = x[rs2] (R172). -/
def execBeq (rs1 rs2 : RegIdx) (imm : BitVec 13) (s : State) : Outcome :=
  execBranch condEq rs1 rs2 imm s

/-- BNE: taken when x[rs1] ≠ x[rs2] (R173). -/
def execBne (rs1 rs2 : RegIdx) (imm : BitVec 13) (s : State) : Outcome :=
  execBranch condNe rs1 rs2 imm s

/-- BLT: taken when x[rs1] <s x[rs2] (R174). -/
def execBlt (rs1 rs2 : RegIdx) (imm : BitVec 13) (s : State) : Outcome :=
  execBranch condLt rs1 rs2 imm s

/-- BGE: taken when x[rs1] >=s x[rs2] (R175). -/
def execBge (rs1 rs2 : RegIdx) (imm : BitVec 13) (s : State) : Outcome :=
  execBranch condGe rs1 rs2 imm s

/-- BLTU: taken when x[rs1] <u x[rs2] (R176). -/
def execBltu (rs1 rs2 : RegIdx) (imm : BitVec 13) (s : State) : Outcome :=
  execBranch condLtu rs1 rs2 imm s

/-- BGEU: taken when x[rs1] >=u x[rs2] (R177). -/
def execBgeu (rs1 rs2 : RegIdx) (imm : BitVec 13) (s : State) : Outcome :=
  execBranch condGeu rs1 rs2 imm s


end Sys2Proof.Machine
end

