-- ==== Sys2Proof/Machine/Jumps.lean ====
section
/-! DEFINITION. The two jumps (spec/46_jumps.md R200 to R203). -/

namespace Sys2Proof.Machine

/-- JAL: `x[rd] <- pc + 4; pc <- pc + immJ`, or the fault of a misaligned target with nothing written (R200, R202). -/
def execJal (rd : RegIdx) (imm : BitVec 21) (s : State) : Outcome :=
  execJump rd (jalTarget s imm) s

/-- JALR: `x[rd] <- pc + 4; pc <- x[rs1] + sext_32(imm)` with bit 0 cleared; x[rs1] is read before rd is written (R201, R202). -/
def execJalr (rd rs1 : RegIdx) (imm : BitVec 12) (s : State) : Outcome :=
  execJump rd (jalrTarget s rs1 imm) s


end Sys2Proof.Machine
end

