-- ==== Sys2Proof/Machine/Loads.lean ====
section
/-! DEFINITION. The five loads (spec/42_loads.md R150 to R157). -/

namespace Sys2Proof.Machine

/-- LB: one byte, sign-extended (R151). -/
def execLb (rd rs1 : RegIdx) (imm : BitVec 12) (s : State) : Outcome :=
  execLoad .byte (BitVec.signExtend 32) rd rs1 imm s

/-- LH: a halfword, sign-extended (R152). -/
def execLh (rd rs1 : RegIdx) (imm : BitVec 12) (s : State) : Outcome :=
  execLoad .half (BitVec.signExtend 32) rd rs1 imm s

/-- LW: a word (R153). -/
def execLw (rd rs1 : RegIdx) (imm : BitVec 12) (s : State) : Outcome :=
  execLoad .word id rd rs1 imm s

/-- LBU: one byte, zero-extended; the offset is still sign-extended (R154). -/
def execLbu (rd rs1 : RegIdx) (imm : BitVec 12) (s : State) : Outcome :=
  execLoad .byte (BitVec.zeroExtend 32) rd rs1 imm s

/-- LHU: a halfword, zero-extended (R155). -/
def execLhu (rd rs1 : RegIdx) (imm : BitVec 12) (s : State) : Outcome :=
  execLoad .half (BitVec.zeroExtend 32) rd rs1 imm s


end Sys2Proof.Machine
end

