-- ==== Sys2Proof/Machine/RegImm.lean ====
section
/-! DEFINITION. The nine register-immediate instructions (spec/41_reg_imm.md R130 to R141). -/

namespace Sys2Proof.Machine

/-- ADDI: `x[rd] <- x[rs1] + sext_32(imm)`, modulo 2^32 (R130). -/
def execAddi (rd rs1 : RegIdx) (imm : BitVec 12) (s : State) : Outcome :=
  execRegImm (fun a b => a + b) rd rs1 imm s

/-- SLTI: `x[rd] <- (x[rs1] <s sext_32(imm)) ? 1 : 0` (R131). -/
def execSlti (rd rs1 : RegIdx) (imm : BitVec 12) (s : State) : Outcome :=
  execRegImm setLessSigned rd rs1 imm s

/-- SLTIU: `x[rd] <- (x[rs1] <u sext_32(imm)) ? 1 : 0`; the immediate is sign-extended first (R132). -/
def execSltiu (rd rs1 : RegIdx) (imm : BitVec 12) (s : State) : Outcome :=
  execRegImm setLessUnsigned rd rs1 imm s

/-- XORI with the sign-extended immediate (R133). -/
def execXori (rd rs1 : RegIdx) (imm : BitVec 12) (s : State) : Outcome :=
  execRegImm (fun a b => a ^^^ b) rd rs1 imm s

/-- ORI with the sign-extended immediate (R134). -/
def execOri (rd rs1 : RegIdx) (imm : BitVec 12) (s : State) : Outcome :=
  execRegImm (fun a b => a ||| b) rd rs1 imm s

/-- ANDI with the sign-extended immediate (R135). -/
def execAndi (rd rs1 : RegIdx) (imm : BitVec 12) (s : State) : Outcome :=
  execRegImm (fun a b => a &&& b) rd rs1 imm s

/-- SLLI: `x[rd] <- x[rs1] << shamt` (R136; C4: the source's "LLI"). -/
def execSlli (rd rs1 : RegIdx) (shamt : BitVec 5) (s : State) : Outcome :=
  execShiftImm shiftLeft rd rs1 shamt s

/-- SRLI: `x[rd] <- x[rs1] >>u shamt` (R137). -/
def execSrli (rd rs1 : RegIdx) (shamt : BitVec 5) (s : State) : Outcome :=
  execShiftImm shiftRightLogical rd rs1 shamt s

/-- SRAI: `x[rd] <- x[rs1] >>s shamt` (R138). -/
def execSrai (rd rs1 : RegIdx) (shamt : BitVec 5) (s : State) : Outcome :=
  execShiftImm shiftRightArith rd rs1 shamt s


end Sys2Proof.Machine
end

