-- ==== Sys2Proof/Machine/RegReg.lean ====
section
/-! DEFINITION. The ten register-register instructions (spec/40_reg_reg.md R110 to R121). -/

namespace Sys2Proof.Machine

/-- ADD: `x[rd] <- x[rs1] + x[rs2]`, modulo 2^32 (R110, R121 (a)). -/
def execAdd (rd rs1 rs2 : RegIdx) (s : State) : Outcome :=
  execRegReg (fun a b => a + b) rd rs1 rs2 s

/-- SUB: `x[rd] <- x[rs1] - x[rs2]`, modulo 2^32; rs1 is the minuend (R111). -/
def execSub (rd rs1 rs2 : RegIdx) (s : State) : Outcome :=
  execRegReg (fun a b => a - b) rd rs1 rs2 s

/-- SLL: `x[rd] <- x[rs1] << u(x[rs2][4:0])` (R112). -/
def execSll (rd rs1 rs2 : RegIdx) (s : State) : Outcome :=
  execRegReg (fun a b => shiftLeft a (shiftAmount b)) rd rs1 rs2 s

/-- SLT: `x[rd] <- (x[rs1] <s x[rs2]) ? 1 : 0` (R113). -/
def execSlt (rd rs1 rs2 : RegIdx) (s : State) : Outcome :=
  execRegReg setLessSigned rd rs1 rs2 s

/-- SLTU: `x[rd] <- (x[rs1] <u x[rs2]) ? 1 : 0` (R114). -/
def execSltu (rd rs1 rs2 : RegIdx) (s : State) : Outcome :=
  execRegReg setLessUnsigned rd rs1 rs2 s

/-- XOR, bit by bit (R115). -/
def execXor (rd rs1 rs2 : RegIdx) (s : State) : Outcome :=
  execRegReg (fun a b => a ^^^ b) rd rs1 rs2 s

/-- SRL: `x[rd] <- x[rs1] >>u u(x[rs2][4:0])` (R116). -/
def execSrl (rd rs1 rs2 : RegIdx) (s : State) : Outcome :=
  execRegReg (fun a b => shiftRightLogical a (shiftAmount b)) rd rs1 rs2 s

/-- SRA: `x[rd] <- x[rs1] >>s u(x[rs2][4:0])` (R117). -/
def execSra (rd rs1 rs2 : RegIdx) (s : State) : Outcome :=
  execRegReg (fun a b => shiftRightArith a (shiftAmount b)) rd rs1 rs2 s

/-- OR, bit by bit (R118). -/
def execOr (rd rs1 rs2 : RegIdx) (s : State) : Outcome :=
  execRegReg (fun a b => a ||| b) rd rs1 rs2 s

/-- AND, bit by bit (R119). -/
def execAnd (rd rs1 rs2 : RegIdx) (s : State) : Outcome :=
  execRegReg (fun a b => a &&& b) rd rs1 rs2 s


end Sys2Proof.Machine
end

