-- ==== Sys2Proof/Machine/Stores.lean ====
section
/-! DEFINITION. The three stores (spec/43_stores.md R160 to R165). -/

namespace Sys2Proof.Machine

/-- SB: the low byte of x[rs2] (R161). -/
def execSb (rs1 rs2 : RegIdx) (imm : BitVec 12) (s : State) : Outcome :=
  execStore .byte rs1 rs2 imm s

/-- SH: the low halfword of x[rs2] (R162). -/
def execSh (rs1 rs2 : RegIdx) (imm : BitVec 12) (s : State) : Outcome :=
  execStore .half rs1 rs2 imm s

/-- SW: the word x[rs2] (R163). -/
def execSw (rs1 rs2 : RegIdx) (imm : BitVec 12) (s : State) : Outcome :=
  execStore .word rs1 rs2 imm s


end Sys2Proof.Machine
end

