-- ==== Sys2Proof/Machine/UpperImm.lean ====
section
/-! DEFINITION. The two upper-immediate instructions (spec/45_upper_imm.md R190 to R193). -/

namespace Sys2Proof.Machine

/-- LUI: `x[rd] <- immU`; it reads no register (R190). -/
def execLui (rd : RegIdx) (imm : BitVec 20) (s : State) : Outcome :=
  retire s rd (upperImm imm)

/-- AUIPC: `x[rd] <- pc + immU`, modulo 2^32, from the AUIPC's own address (R191). -/
def execAuipc (rd : RegIdx) (imm : BitVec 20) (s : State) : Outcome :=
  retire s rd (s.pc + upperImm imm)


end Sys2Proof.Machine
end

