-- ==== Sys2Proof/Machine/Step.lean ====
section
/-! DEFINITION. One step of the hart (spec/00_scope.md R15), and where the next instruction is fetched. -/

namespace Sys2Proof.Machine

/-- One step, in the order of R15 and R214: the end of the run, the alignment of the pc, the fetch, the decoding, the
instruction's rule. `Refusal.runEnded` is R15's "no step" (R254, log entry 5). -/
def step (s : State) : Host.Outcome State Fault Refusal :=
  if s.pc = s.endPc then .refused .runEnded
  else if s.pc.extractLsb' 0 2 ≠ 0b00#2 then raise (.instrAddrMisaligned s.pc s.pc)
  else match fetch s with
    | .error f => raise f
    | .ok w =>
      match decode w with
      | .error _ => raise (.illegalInstruction s.pc w)
      | .ok i => exec i s

/-- `s` with the instruction whose bits, as spec/opcode_table.json numbers them, are `w` (those at and above `nbits` are 0)
stored where `step` fetches its next instruction (log entries 6, 11). -/
def State.withFetchWord (s : State) (nbits w : Nat) : State :=
  placeInstruction s (BitVec.ofNat 32 (w % 2 ^ nbits))

end Sys2Proof.Machine
end

