-- ==== Sys2Proof/Machine/Assembler.lean ====
section
/-! DEFINITION. The assembler's side of the spec, which binds no step of the machine (spec/92_eei_decisions.md D39): register
names and their conventions (spec/10_state.md R22, R23), operand syntax (spec/30_encoding.md R96), pseudo-instructions (R97)
and the split of a 32-bit constant (spec/45_upper_imm.md R192, R193). Directives are outside the spec (R96). -/

namespace Sys2Proof.Machine

/-! ### Register names (R22, R23) -/

/-- The column "preserved across a call?" of R22: a convention of software, which no instruction checks (R23). -/
inductive Preserved where
  | yes
  | no
  | notApplicable
  deriving DecidableEq, Repr

/-- A row of the register table: the ABI names, the use by convention, and whether a callee preserves it (R22). -/
structure RegRow where
  abi : List String
  use : String
  preserved : Preserved
  deriving DecidableEq, Repr

/-- The register table, row i for x[i] (R22; C5 for x23). The pc's row has no number and no name a field can hold. -/
def regTable : List RegRow := [
  ⟨["zero"], "hardwired to 0, ignores writes", .notApplicable⟩,
  ⟨["ra"], "return address for jumps", .no⟩,
  ⟨["sp"], "stack pointer", .yes⟩,
  ⟨["gp"], "global pointer", .notApplicable⟩,
  ⟨["tp"], "thread pointer", .notApplicable⟩,
  ⟨["t0"], "temporary register 0", .no⟩,
  ⟨["t1"], "temporary register 1", .no⟩,
  ⟨["t2"], "temporary register 2", .no⟩,
  ⟨["s0", "fp"], "saved register 0 or frame pointer", .yes⟩,
  ⟨["s1"], "saved register 1", .yes⟩,
  ⟨["a0"], "return value or function argument 0", .no⟩,
  ⟨["a1"], "return value or function argument 1", .no⟩,
  ⟨["a2"], "function argument 2", .no⟩,
  ⟨["a3"], "function argument 3", .no⟩,
  ⟨["a4"], "function argument 4", .no⟩,
  ⟨["a5"], "function argument 5", .no⟩,
  ⟨["a6"], "function argument 6", .no⟩,
  ⟨["a7"], "function argument 7", .no⟩,
  ⟨["s2"], "saved register 2", .yes⟩,
  ⟨["s3"], "saved register 3", .yes⟩,
  ⟨["s4"], "saved register 4", .yes⟩,
  ⟨["s5"], "saved register 5", .yes⟩,
  ⟨["s6"], "saved register 6", .yes⟩,
  ⟨["s7"], "saved register 7", .yes⟩,
  ⟨["s8"], "saved register 8", .yes⟩,
  ⟨["s9"], "saved register 9", .yes⟩,
  ⟨["s10"], "saved register 10", .yes⟩,
  ⟨["s11"], "saved register 11", .yes⟩,
  ⟨["t3"], "temporary register 3", .no⟩,
  ⟨["t4"], "temporary register 4", .no⟩,
  ⟨["t5"], "temporary register 5", .no⟩,
  ⟨["t6"], "temporary register 6", .no⟩
]

/-- The ABI names in place of `xN` (R22, R96). -/
def abiNames : List (List Char × RegIdx) :=
  regTable.zipIdx.flatMap fun (row, i) => row.abi.map fun n => (n.toList, BitVec.ofNat 5 i)

/-! ### Lexical forms (R96) -/

/-- The value of a digit in base 16 or below. -/
def digitValue (c : Char) : Option Nat :=
  if '0' ≤ c ∧ c ≤ '9' then some (c.toNat - '0'.toNat)
  else if 'a' ≤ c ∧ c ≤ 'f' then some (c.toNat - 'a'.toNat + 10)
  else if 'A' ≤ c ∧ c ≤ 'F' then some (c.toNat - 'A'.toNat + 10)
  else none

/-- Digits read on from an accumulated value; none if a character is no digit of the base. -/
def digitsValue (base : Nat) : Nat → List Char → Option Nat
  | acc, [] => some acc
  | acc, c :: cs =>
    match digitValue c with
    | some d => if d < base then digitsValue base (acc * base + d) cs else none
    | none => none

/-- A number without a sign: decimal, or hexadecimal with 0x (R96). -/
def parseNat : List Char → Option Nat
  | [] => none
  | '0' :: 'x' :: c :: cs => digitsValue 16 0 (c :: cs)
  | c :: cs => digitsValue 10 0 (c :: cs)

/-- A number, with a minus sign or without (R96). -/
def parseInt : List Char → Option Int
  | '-' :: cs => (parseNat cs).map fun n => -(n : Int)
  | cs => (parseNat cs).map fun n => (n : Int)

/-- A register name: `xN` with N in 0 .. 31, or an ABI name (R96). -/
def parseReg (cs : List Char) : Option RegIdx :=
  match abiNames.lookup cs with
  | some r => some r
  | none =>
    match cs with
    | 'x' :: c :: ds =>
      match digitsValue 10 0 (c :: ds) with
      | some n => if n < 32 then some (BitVec.ofNat 5 n) else none
      | none => none
    | _ => none

/-- The mnemonics with their spelling in capitals. -/
def mnemonicNames : List (Mnemonic × String) := [
  (.ADD, "ADD"), (.SUB, "SUB"), (.SLL, "SLL"), (.SLT, "SLT"), (.SLTU, "SLTU"), (.XOR, "XOR"), (.SRL, "SRL"),
  (.SRA, "SRA"), (.OR, "OR"), (.AND, "AND"), (.ADDI, "ADDI"), (.SLTI, "SLTI"), (.SLTIU, "SLTIU"), (.XORI,
  "XORI"), (.ORI, "ORI"), (.ANDI, "ANDI"), (.SLLI, "SLLI"), (.SRLI, "SRLI"), (.SRAI, "SRAI"), (.LB, "LB"),
  (.LH, "LH"), (.LW, "LW"), (.LBU, "LBU"), (.LHU, "LHU"), (.SB, "SB"), (.SH, "SH"), (.SW, "SW"), (.BEQ,
  "BEQ"), (.BNE, "BNE"), (.BLT, "BLT"), (.BGE, "BGE"), (.BLTU, "BLTU"), (.BGEU, "BGEU"), (.LUI, "LUI"),
  (.AUIPC, "AUIPC"), (.JAL, "JAL"), (.JALR, "JALR")]

/-- A mnemonic, written in either case (R96). -/
def parseMnemonic (cs : List Char) : Option Mnemonic :=
  (mnemonicNames.find? fun e => e.2.toList == cs.map Char.toUpper).map (·.1)

/-- An operand as it is written (R96): a register, a number, `imm(rs1)`, or a label, which stands for an address. -/
inductive Operand where
  | reg (r : RegIdx)
  | num (n : Int)
  | mem (imm : Int) (rs1 : RegIdx)
  | label (addr : Word)
  deriving DecidableEq, Repr

/-- Is the character white space within a line? -/
def isBlank (c : Char) : Bool := c == ' ' || c == Char.ofNat 9

/-- The text without blanks at its ends. -/
def trimBlanks (cs : List Char) : List Char :=
  ((cs.dropWhile isBlank).reverse.dropWhile isBlank).reverse

/-- The text cut at its commas. -/
def splitCommas : List Char → List (List Char)
  | [] => [[]]
  | c :: cs =>
    if c = ',' then [] :: splitCommas cs
    else match splitCommas cs with
      | [] => [[c]]
      | p :: ps => (c :: p) :: ps

/-- One operand, with the addresses of the labels (R96). -/
def parseOperand (labels : List (List Char × Word)) (cs : List Char) : Option Operand :=
  match parseReg cs with
  | some r => some (.reg r)
  | none =>
    match parseInt cs with
    | some n => some (.num n)
    | none =>
      match cs.dropWhile (· != '(') with
      | [] => (labels.lookup cs).map .label
      | _ :: inside =>
        match parseInt (trimBlanks (cs.takeWhile (· != '('))), parseReg (trimBlanks (inside.takeWhile (· != ')'))) with
        | some n, some r => if inside.dropWhile (· != ')') = [')'] then some (.mem n r) else none
        | _, _ => none

/-- A line: mnemonic, blanks, operands separated by commas; `#` starts a comment that runs to the end of the line (R96). -/
def parseLine (labels : List (List Char × Word)) (line : List Char) : Option (Mnemonic × List Operand) :=
  let cs := trimBlanks (line.takeWhile (· != '#'))
  match parseMnemonic (cs.takeWhile fun c => !isBlank c) with
  | none => none
  | some m =>
    ((splitCommas (cs.dropWhile fun c => !isBlank c)).mapM fun o => parseOperand labels (trimBlanks o)).map fun ops => (m, ops)

/-! ### From operands to an instruction (R96, R98) -/

/-- A 12-bit immediate, -2048 .. 2047 (R96). -/
def imm12Of (n : Int) : Option (BitVec 12) :=
  if -2048 ≤ n ∧ n ≤ 2047 then some (BitVec.ofInt 12 n) else none

/-- A shift amount, 0 .. 31 (R96). -/
def shamtOf (n : Int) : Option (BitVec 5) :=
  if 0 ≤ n ∧ n ≤ 31 then some (BitVec.ofInt 5 n) else none

/-- The 20-bit field of LUI and AUIPC, 0 .. 0xFFFFF (R96, R190). -/
def imm20Of (n : Int) : Option (BitVec 20) :=
  if 0 ≤ n ∧ n ≤ 0xFFFFF then some (BitVec.ofInt 20 n) else none

/-- The byte distance from the instruction at `pc` to an address (R96). -/
def distanceTo (pc addr : Word) : Int := (addr - pc).toInt

/-- A branch offset: even, -4096 .. 4094 (R81, R96). -/
def immBOf (n : Int) : Option (BitVec 13) :=
  if -4096 ≤ n ∧ n ≤ 4094 ∧ n % 2 = 0 then some (BitVec.ofInt 13 n) else none

/-- A JAL offset: even, -1048576 .. 1048574 (R83, R96). -/
def immJOf (n : Int) : Option (BitVec 21) :=
  if -1048576 ≤ n ∧ n ≤ 1048574 ∧ n % 2 = 0 then some (BitVec.ofInt 21 n) else none

/-- `OP rd, rs1, rs2` (R96; C3: first operand rd, second rs1, third rs2). -/
def asmR (f : RegIdx → RegIdx → RegIdx → Instr) : List Operand → Option Instr
  | [.reg rd, .reg rs1, .reg rs2] => some (f rd rs1 rs2)
  | _ => none

/-- `OP rd, rs1, imm` (R96). -/
def asmI (f : RegIdx → RegIdx → BitVec 12 → Instr) : List Operand → Option Instr
  | [.reg rd, .reg rs1, .num n] => (imm12Of n).map (f rd rs1)
  | _ => none

/-- `OP rd, rs1, shamt` (R96). -/
def asmShift (f : RegIdx → RegIdx → BitVec 5 → Instr) : List Operand → Option Instr
  | [.reg rd, .reg rs1, .num n] => (shamtOf n).map (f rd rs1)
  | _ => none

/-- `OP rd, imm(rs1)`, the loads and JALR (R96). -/
def asmLoad (f : RegIdx → RegIdx → BitVec 12 → Instr) : List Operand → Option Instr
  | [.reg rd, .mem n rs1] => (imm12Of n).map (f rd rs1)
  | _ => none

/-- `OP rs2, imm(rs1)`: the data register first (R96, R160). -/
def asmStore (f : RegIdx → RegIdx → BitVec 12 → Instr) : List Operand → Option Instr
  | [.reg rs2, .mem n rs1] => (imm12Of n).map (f rs1 rs2)
  | _ => none

/-- `OP rs1, rs2, label`; a number in place of the label is the offset itself (R96). -/
def asmBranch (pc : Word) (f : RegIdx → RegIdx → BitVec 13 → Instr) : List Operand → Option Instr
  | [.reg rs1, .reg rs2, .label a] => (immBOf (distanceTo pc a)).map (f rs1 rs2)
  | [.reg rs1, .reg rs2, .num n] => (immBOf n).map (f rs1 rs2)
  | _ => none

/-- `OP rd, imm20` (R96). -/
def asmU (f : RegIdx → BitVec 20 → Instr) : List Operand → Option Instr
  | [.reg rd, .num n] => (imm20Of n).map (f rd)
  | _ => none

/-- `JAL rd, label`; a number in place of the label is the offset itself (R96). -/
def asmJ (pc : Word) (f : RegIdx → BitVec 21 → Instr) : List Operand → Option Instr
  | [.reg rd, .label a] => (immJOf (distanceTo pc a)).map (f rd)
  | [.reg rd, .num n] => (immJOf n).map (f rd)
  | _ => none

/-- The instruction at the address `pc` of a mnemonic with its operands (R96). -/
def assemble (pc : Word) : Mnemonic → List Operand → Option Instr
  | .ADD => asmR .add
  | .SUB => asmR .sub
  | .SLL => asmR .sll
  | .SLT => asmR .slt
  | .SLTU => asmR .sltu
  | .XOR => asmR .xor
  | .SRL => asmR .srl
  | .SRA => asmR .sra
  | .OR => asmR .or
  | .AND => asmR .and
  | .ADDI => asmI .addi
  | .SLTI => asmI .slti
  | .SLTIU => asmI .sltiu
  | .XORI => asmI .xori
  | .ORI => asmI .ori
  | .ANDI => asmI .andi
  | .SLLI => asmShift .slli
  | .SRLI => asmShift .srli
  | .SRAI => asmShift .srai
  | .LB => asmLoad .lb
  | .LH => asmLoad .lh
  | .LW => asmLoad .lw
  | .LBU => asmLoad .lbu
  | .LHU => asmLoad .lhu
  | .SB => asmStore .sb
  | .SH => asmStore .sh
  | .SW => asmStore .sw
  | .BEQ => asmBranch pc .beq
  | .BNE => asmBranch pc .bne
  | .BLT => asmBranch pc .blt
  | .BGE => asmBranch pc .bge
  | .BLTU => asmBranch pc .bltu
  | .BGEU => asmBranch pc .bgeu
  | .LUI => asmU .lui
  | .AUIPC => asmU .auipc
  | .JAL => asmJ pc .jal
  | .JALR => asmLoad .jalr

/-- The instruction of a line of assembly text at the address `pc` (R96). -/
def assembleLine (labels : List (List Char × Word)) (pc : Word) (line : List Char) : Option Instr :=
  (parseLine labels line).bind fun (m, ops) => assemble pc m ops

/-! ### Constants and pc-relative addresses (R192, R193) -/

/-- The low part of a constant, `c[11:0]`: ADDI sign-extends it (R192). -/
def lo12 (c : Word) : BitVec 12 := c.extractLsb' 0 12

/-- The LUI or AUIPC operand of a constant, `((c - lo) modulo 2^32)[31:12]` (R192). -/
def hi20 (c : Word) : BitVec 20 := (c - signExt12 (lo12 c)).extractLsb' 12 20

/-! ### Pseudo-instructions (R97) -/

/-- The pseudo-instructions of R97. A label is the address it stands for. -/
inductive Pseudo where
  | nop
  | mv (rd rs : RegIdx)
  | li (rd : RegIdx) (c : Word)
  | not (rd rs : RegIdx)
  | neg (rd rs : RegIdx)
  | seqz (rd rs : RegIdx)
  | snez (rd rs : RegIdx)
  | sltz (rd rs : RegIdx)
  | sgtz (rd rs : RegIdx)
  | beqz (rs : RegIdx) (label : Word)
  | bnez (rs : RegIdx) (label : Word)
  | blez (rs : RegIdx) (label : Word)
  | bgez (rs : RegIdx) (label : Word)
  | bltz (rs : RegIdx) (label : Word)
  | bgtz (rs : RegIdx) (label : Word)
  | bgt (rs rt : RegIdx) (label : Word)
  | ble (rs rt : RegIdx) (label : Word)
  | bgtu (rs rt : RegIdx) (label : Word)
  | bleu (rs rt : RegIdx) (label : Word)
  | j (label : Word)
  | jal (label : Word)
  | jr (rs : RegIdx)
  | jalr (rs : RegIdx)
  | ret
  | call (label : Word)
  | tail (label : Word)
  | la (rd : RegIdx) (symbol : Word)
  deriving DecidableEq, Repr

/-- The real instructions of a pseudo-instruction at the address `pc` (R97); none where a label is out of reach. -/
def Pseudo.expand (pc : Word) : Pseudo → Option (List Instr)
  | .nop => some [.addi 0 0 0]
  | .mv rd rs => some [.addi rd rs 0]
  | .li rd c =>
    if -2048 ≤ c.toInt ∧ c.toInt ≤ 2047 then some [.addi rd 0 (lo12 c)]
    else if lo12 c = 0#12 then some [.lui rd (hi20 c)]
    else some [.lui rd (hi20 c), .addi rd rd (lo12 c)]
  | .not rd rs => some [.xori rd rs (-1)]
  | .neg rd rs => some [.sub rd 0 rs]
  | .seqz rd rs => some [.sltiu rd rs 1]
  | .snez rd rs => some [.sltu rd 0 rs]
  | .sltz rd rs => some [.slt rd rs 0]
  | .sgtz rd rs => some [.slt rd 0 rs]
  | .beqz rs a => (immBOf (distanceTo pc a)).map fun i => [.beq rs 0 i]
  | .bnez rs a => (immBOf (distanceTo pc a)).map fun i => [.bne rs 0 i]
  | .blez rs a => (immBOf (distanceTo pc a)).map fun i => [.bge 0 rs i]
  | .bgez rs a => (immBOf (distanceTo pc a)).map fun i => [.bge rs 0 i]
  | .bltz rs a => (immBOf (distanceTo pc a)).map fun i => [.blt rs 0 i]
  | .bgtz rs a => (immBOf (distanceTo pc a)).map fun i => [.blt 0 rs i]
  | .bgt rs rt a => (immBOf (distanceTo pc a)).map fun i => [.blt rt rs i]
  | .ble rs rt a => (immBOf (distanceTo pc a)).map fun i => [.bge rt rs i]
  | .bgtu rs rt a => (immBOf (distanceTo pc a)).map fun i => [.bltu rt rs i]
  | .bleu rs rt a => (immBOf (distanceTo pc a)).map fun i => [.bgeu rt rs i]
  | .j a => (immJOf (distanceTo pc a)).map fun i => [.jal 0 i]
  | .jal a => (immJOf (distanceTo pc a)).map fun i => [.jal 1 i]
  | .jr rs => some [.jalr 0 rs 0]
  | .jalr rs => some [.jalr 1 rs 0]
  | .ret => some [.jalr 0 1 0]
  | .call a => some [.auipc 1 (hi20 (a - pc)), .jalr 1 1 (lo12 (a - pc))]
  | .tail a => some [.auipc 6 (hi20 (a - pc)), .jalr 0 6 (lo12 (a - pc))]
  | .la rd a => some [.auipc rd (hi20 (a - pc)), .addi rd rd (lo12 (a - pc))]

end Sys2Proof.Machine
end

