-- ==== Sys2Proof/Safety.lean ====
section
/-! DEFINITION. What a run is and what counts as a good one, in the terms the claims use (spec/60_exceptions.md R211, R215;
spec/70_reset_and_hazards.md R254), and the invariant of the machine's states. -/

namespace Sys2Proof.Machine

/-- The invariant: the pc and `END_PC` are multiples of 4 (R25, R250), and memory is in its canonical form with every
listed byte in `MEM` (R31). It holds of every launch state of R250 and every step keeps it. -/
structure State.Inv (s : State) : Prop where
  pcAligned : s.pc.extractLsb' 0 2 = 0b00#2
  endPcAligned : s.endPc.extractLsb' 0 2 = 0b00#2
  memCanonical : s.mem.wf
  memInMap : ∀ c ∈ s.mem, s.inMem c.1 = true

/-- What has become of a run after some steps (R254): it goes on, it has ended at `END_PC` in a final state, it has faulted
with the state as it was before the faulting instruction (R211, R215), or a step was rejected (no step of this model is). -/
inductive RunFate where
  | running (s : State)
  | ended (s : State)
  | faulted (f : Fault) (s : State)
  | rejected (r : Refusal) (s : State)
  deriving DecidableEq, Repr

/-- The run of at most k steps from a state. Reaching `END_PC` is tested before every step and after the last (R254). -/
def run : Nat → State → RunFate
  | 0, s => if s.pc = s.endPc then .ended s else .running s
  | k + 1, s =>
    if s.pc = s.endPc then .ended s
    else match step s with
      | .next t => run k t
      | .fault f => .faulted f s
      | .refused r => .rejected r s

/-- The state a run is in, or stopped in. -/
def RunFate.state : RunFate → State
  | .running s => s
  | .ended s => s
  | .faulted _ s => s
  | .rejected _ s => s

/-- A run is good when it ends at `END_PC`; a fault is never a successful end (R254, D2). -/
def RunFate.successful : RunFate → Bool
  | .running _ => false
  | .ended _ => true
  | .faulted _ _ => false
  | .rejected _ _ => false

end Sys2Proof.Machine
end

