-- ==== Sys2Proof/Certificates/Slice0/Obligations.lean ====
section
/-! DEFINITION. The statements for the provers, from the numbered rules of spec/. The shapes that several statements share
(what a register-writing instruction leaves, a load, a store, a branch) are said once, in `Sys2Proof.Claims`. -/

namespace Sys2Proof.Claims
open Sys2Proof.Machine

/-- `sext_32(v)`: the 32-bit vector with the same signed value (R10). -/
def sx {n : Nat} (v : BitVec n) : Word := BitVec.ofInt 32 v.toInt

/-- Every byte of memory reads as before. -/
def sameMemory (s t : State) : Prop := ∀ a, t.mem.read a = s.mem.read a

/-- The parameters of the step relation are as before (R31). -/
def sameParameters (s t : State) : Prop := t.map = s.map ∧ t.endPc = s.endPc

/-- Every general register reads as before. -/
def sameRegisters (s t : State) : Prop := ∀ r, t.reg r = s.reg r

/-- Register rd reads v unless it is x0, and every other register reads as before (R21). -/
def registersAfter (s t : State) (rd : RegIdx) (v : Word) : Prop :=
  ∀ r, t.reg r = if r = rd ∧ rd ≠ 0#5 then v else s.reg r

/-- The pc is that of the next instruction, modulo 2^32 (R25). -/
def pcAdvanced (s t : State) : Prop := t.pc.toNat = (s.pc.toNat + 4) % 2 ^ 32

/-- The instruction answers a next state that differs in rd and the pc alone: rd holds a value with the property `P` and
the pc is that of the next instruction. -/
def writesOnlyRd (i : Instr) (s : State) (rd : RegIdx) (P : Word → Prop) : Prop :=
  ∃ v t, exec i s = .next t ∧ P v ∧ registersAfter s t rd v ∧ pcAdvanced s t ∧ sameMemory s t ∧ sameParameters s t

/-- The instruction answers a next state that differs in the pc alone. -/
def movesOnlyPc (i : Instr) (s : State) (target : Word) : Prop :=
  ∃ t, exec i s = .next t ∧ t.pc = target ∧ sameRegisters s t ∧ sameMemory s t ∧ sameParameters s t

/-- The instruction's assembly text at `pc` (R96) and its word (R98) both stand for it. -/
def spelled (pc : Word) (m : Mnemonic) (ops : List Operand) (w : Word) (i : Instr) : Prop :=
  assemble pc m ops = some i ∧ decode w = .ok i

/-- An R-format instruction of the group 0110011: its syntax, its word, and that from every state it completes, writes a
value related by `P` to x[rs1] and x[rs2] to rd and changes nothing else but the pc (R120). -/
def regRegOp (m : Mnemonic) (funct7 : BitVec 7) (funct3 : BitVec 3) (mk : RegIdx → RegIdx → RegIdx → Instr)
    (P : Word → Word → Word → Prop) : Prop :=
  ∀ (s : State) (rd rs1 rs2 : RegIdx),
    spelled s.pc m [.reg rd, .reg rs1, .reg rs2] (funct7 ++ rs2 ++ rs1 ++ funct3 ++ rd ++ 0b0110011#7) (mk rd rs1 rs2) ∧
    writesOnlyRd (mk rd rs1 rs2) s rd (P (s.reg rs1) (s.reg rs2))

/-- An I-format instruction of the group 0010011, likewise, with x[rs1] and the 12-bit immediate (R140). -/
def regImmOp (m : Mnemonic) (funct3 : BitVec 3) (mk : RegIdx → RegIdx → BitVec 12 → Instr)
    (P : Word → BitVec 12 → Word → Prop) : Prop :=
  ∀ (s : State) (rd rs1 : RegIdx) (imm : BitVec 12),
    spelled s.pc m [.reg rd, .reg rs1, .num imm.toInt] (imm ++ rs1 ++ funct3 ++ rd ++ 0b0010011#7) (mk rd rs1 imm) ∧
    writesOnlyRd (mk rd rs1 imm) s rd (P (s.reg rs1) imm)

/-- A shift-immediate instruction, likewise, with x[rs1] and the amount (R141). -/
def shiftImmOp (m : Mnemonic) (funct7 : BitVec 7) (funct3 : BitVec 3) (mk : RegIdx → RegIdx → BitVec 5 → Instr)
    (P : Word → Nat → Word → Prop) : Prop :=
  ∀ (s : State) (rd rs1 : RegIdx) (shamt : BitVec 5),
    spelled s.pc m [.reg rd, .reg rs1, .num shamt.toNat] (funct7 ++ shamt ++ rs1 ++ funct3 ++ rd ++ 0b0010011#7)
      (mk rd rs1 shamt) ∧
    writesOnlyRd (mk rd rs1 shamt) s rd (P (s.reg rs1) shamt.toNat)

/-- A load of n bytes: its syntax and word; the effective address modulo 2^32; it completes exactly where the address is a
multiple of n (every address is one of 1) and the n bytes are in `MEM`, writing rd a value related by `P` to the bytes;
where a byte is not, the access fault (R150, R156). What a misaligned address does is `loadMisaligned`. -/
def loadOp (m : Mnemonic) (n : Nat) (funct3 : BitVec 3) (mk : RegIdx → RegIdx → BitVec 12 → Instr)
    (P : (Nat → Byte) → Word → Prop) : Prop :=
  ∀ (s : State) (rd rs1 : RegIdx) (imm : BitVec 12),
    spelled s.pc m [.reg rd, .mem imm.toInt rs1] (imm ++ rs1 ++ funct3 ++ rd ++ 0b0000011#7) (mk rd rs1 imm) ∧
    (effAddr s rs1 imm).toNat = ((s.reg rs1).toNat + (sx imm).toNat) % 2 ^ 32 ∧
    ((effAddr s rs1 imm).toNat % n = 0 → (∀ k, k < n → s.inMem ((effAddr s rs1 imm).toNat + k) = true) →
      writesOnlyRd (mk rd rs1 imm) s rd (P fun k => s.mem.read ((effAddr s rs1 imm).toNat + k))) ∧
    ((effAddr s rs1 imm).toNat % n = 0 → (∃ k, k < n ∧ s.inMem ((effAddr s rs1 imm).toNat + k) = false) →
      exec (mk rd rs1 imm) s = .fault (.loadAccessFault s.pc (effAddr s rs1 imm)))

/-- A load of n bytes from an address that is no multiple of n faults, whether or not the bytes are in `MEM` (R44, R156). -/
def loadMisaligned (n : Nat) (mk : RegIdx → RegIdx → BitVec 12 → Instr) : Prop :=
  ∀ (s : State) (rd rs1 : RegIdx) (imm : BitVec 12), (effAddr s rs1 imm).toNat % n ≠ 0 →
    exec (mk rd rs1 imm) s = .fault (.loadAddrMisaligned s.pc (effAddr s rs1 imm))

/-- A store of n bytes: its syntax and word; the effective address modulo 2^32; it completes exactly where the address is a
multiple of n (every address is one of 1) and the n bytes are in `MEM` and outside `CODE`, leaving byte k of x[rs2] at the
address plus k, every other byte of memory and every register as before; where a byte is not, the access fault, with nothing
written (R160, R164). What a misaligned address does is `storeMisaligned`. -/
def storeOp (m : Mnemonic) (n : Nat) (funct3 : BitVec 3) (mk : RegIdx → RegIdx → BitVec 12 → Instr) : Prop :=
  ∀ (s : State) (rs1 rs2 : RegIdx) (imm : BitVec 12),
    spelled s.pc m [.reg rs2, .mem imm.toInt rs1]
      (imm.extractLsb' 5 7 ++ rs2 ++ rs1 ++ funct3 ++ imm.extractLsb' 0 5 ++ 0b0100011#7) (mk rs1 rs2 imm) ∧
    (effAddr s rs1 imm).toNat = ((s.reg rs1).toNat + (sx imm).toNat) % 2 ^ 32 ∧
    ((effAddr s rs1 imm).toNat % n = 0 →
      (∀ k, k < n → s.inMem ((effAddr s rs1 imm).toNat + k) = true ∧ s.inCode ((effAddr s rs1 imm).toNat + k) = false) →
      ∃ t, exec (mk rs1 rs2 imm) s = .next t ∧ sameRegisters s t ∧ pcAdvanced s t ∧ sameParameters s t ∧
        (∀ k, k < n → t.mem.read ((effAddr s rs1 imm).toNat + k) = (s.reg rs2).extractLsb' (8 * k) 8) ∧
        (∀ a, a < (effAddr s rs1 imm).toNat ∨ (effAddr s rs1 imm).toNat + n ≤ a → t.mem.read a = s.mem.read a)) ∧
    ((effAddr s rs1 imm).toNat % n = 0 →
      (∃ k, k < n ∧ (s.inMem ((effAddr s rs1 imm).toNat + k) = false ∨ s.inCode ((effAddr s rs1 imm).toNat + k) = true)) →
      exec (mk rs1 rs2 imm) s = .fault (.storeAccessFault s.pc (effAddr s rs1 imm)))

/-- A store of n bytes to an address that is no multiple of n faults, wherever the bytes are (R44, R164). -/
def storeMisaligned (n : Nat) (mk : RegIdx → RegIdx → BitVec 12 → Instr) : Prop :=
  ∀ (s : State) (rs1 rs2 : RegIdx) (imm : BitVec 12), (effAddr s rs1 imm).toNat % n ≠ 0 →
    exec (mk rs1 rs2 imm) s = .fault (.storeAddrMisaligned s.pc (effAddr s rs1 imm))

/-- A branch on the condition `cond` of x[rs1] and x[rs2], for every even offset: its syntax and word; not taken it goes to
pc + 4 whatever the offset; taken it goes to pc + immB where that is a multiple of 4 and faults where it is not; nothing
but the pc changes (R170, R171). -/
def branchOp (m : Mnemonic) (funct3 : BitVec 3) (mk : RegIdx → RegIdx → BitVec 13 → Instr) (cond : Word → Word → Prop) : Prop :=
  ∀ (s : State) (rs1 rs2 : RegIdx) (imm : BitVec 13), imm.getLsbD 0 = false →
    spelled s.pc m [.reg rs1, .reg rs2, .label (s.pc + sx imm)]
      (imm.extractLsb' 12 1 ++ imm.extractLsb' 5 6 ++ rs2 ++ rs1 ++ funct3 ++ imm.extractLsb' 1 4 ++ imm.extractLsb' 11 1
        ++ 0b1100011#7) (mk rs1 rs2 imm) ∧
    (¬ cond (s.reg rs1) (s.reg rs2) → movesOnlyPc (mk rs1 rs2 imm) s (s.pc + 4#32)) ∧
    (cond (s.reg rs1) (s.reg rs2) → (s.pc + sx imm).toNat % 4 = 0 → movesOnlyPc (mk rs1 rs2 imm) s (s.pc + sx imm)) ∧
    (cond (s.reg rs1) (s.reg rs2) → (s.pc + sx imm).toNat % 4 ≠ 0 →
      exec (mk rs1 rs2 imm) s = .fault (.instrAddrMisaligned s.pc (s.pc + sx imm)))

/-- The instructions run one after another from a state, each by its rule; the first fault or refusal stops them. -/
def execSeq : List Instr → State → Outcome
  | [], s => .next s
  | i :: is, s =>
    match exec i s with
    | .next t => execSeq is t
    | .fault f => .fault f
    | .refused r => .refused r

/-- The instructions in sequence leave rd with the value v, unless it is x0, and change nothing else but the pc, which moves
on by four bytes an instruction. -/
def seqWritesOnlyRd (is : List Instr) (s : State) (rd : RegIdx) (v : Word) : Prop :=
  ∃ t, execSeq is s = .next t ∧ registersAfter s t rd v ∧ t.pc.toNat = (s.pc.toNat + 4 * is.length) % 2 ^ 32 ∧
    sameMemory s t ∧ sameParameters s t

/-- A pseudo-instruction for a branch to the address pc + imm, in reach and a multiple of 4: it is one instruction, which
goes there where the condition holds and to the next instruction where it does not, and changes nothing but the pc. -/
def branchPseudo (s : State) (imm : BitVec 13) (p : Word → Pseudo) (cond : Prop) : Prop :=
  ∃ i, Pseudo.expand s.pc (p (s.pc + sx imm)) = some [i] ∧ i.wellFormed = true ∧
    (cond → movesOnlyPc i s (s.pc + sx imm)) ∧ (¬ cond → movesOnlyPc i s (s.pc + 4#32))

/-- A pseudo-instruction that jumps to an address, a multiple of 4, with pc + 4 in rd. -/
def jumpPseudo (s : State) (p : Pseudo) (rd : RegIdx) (target : Word) : Prop :=
  ∃ i t, Pseudo.expand s.pc p = some [i] ∧ i.wellFormed = true ∧ exec i s = .next t ∧ t.pc = target ∧
    registersAfter s t rd (s.pc + 4#32) ∧ sameMemory s t ∧ sameParameters s t

/-- The value of four bytes, the first the least significant (R43). -/
def leWord (b : Nat → Byte) : Nat :=
  (b 0).toNat + 2 ^ 8 * (b 1).toNat + 2 ^ 16 * (b 2).toNat + 2 ^ 24 * (b 3).toNat

/-- The value of two bytes, the first the less significant (R43). -/
def leHalf (b : Nat → Byte) : Nat := (b 0).toNat + 2 ^ 8 * (b 1).toNat

end Sys2Proof.Claims

open Sys2Proof Sys2Proof.Machine Sys2Proof.Claims

/-! ### Encoding (spec/30_encoding.md) -/

/-- R98: decode after encode gives back the instruction with every operand. -/
def Obligations.DecodeAfterEncodeGivesInstruction : Prop :=
  ∀ i : Instr, i.wellFormed = true → decode (encode i) = .ok i

/-- R98: encode after decode gives back the word, for every word that selects a row; what is decoded is well formed. -/
def Obligations.EncodeAfterDecodeGivesWord : Prop :=
  ∀ (w : Word) (i : Instr), decode w = .ok i → encode i = w ∧ i.wellFormed = true

/-- R87: a word selects a row exactly when all the fixed bits of the row match; the rows are pairwise disjoint. -/
def Obligations.DecodeAgreesWithOpcodeTable : Prop :=
  (∀ (w : Word) (m : Mnemonic),
    (∃ i, decode w = .ok i ∧ i.mnemonic = m) ↔ ∃ r ∈ opcodeTable, r.mnemonic = m ∧ w &&& r.mask = r.pattern) ∧
  (∀ (w : Word) (r q : OpcodeRow), r ∈ opcodeTable → q ∈ opcodeTable → w &&& r.mask = r.pattern → w &&& q.mask = q.pattern →
    r = q)

/-- R88: the selector values of the five printed groups and of JALR that select no instruction. -/
def Obligations.UnusedSelectorsSelectNothing : Prop :=
  ∀ w : Word,
    (opcodeField w = 0b0110011#7 →
      (funct7Field w ≠ 0b0000000#7 ∧ funct7Field w ≠ 0b0100000#7) ∨
      (funct7Field w = 0b0100000#7 ∧ funct3Field w ≠ 0b000#3 ∧ funct3Field w ≠ 0b101#3) → ∀ i, decode w ≠ .ok i) ∧
    (opcodeField w = 0b0010011#7 →
      (funct3Field w = 0b001#3 ∧ funct7Field w ≠ 0b0000000#7) ∨
      (funct3Field w = 0b101#3 ∧ funct7Field w ≠ 0b0000000#7 ∧ funct7Field w ≠ 0b0100000#7) → ∀ i, decode w ≠ .ok i) ∧
    (opcodeField w = 0b0000011#7 →
      funct3Field w = 0b011#3 ∨ funct3Field w = 0b110#3 ∨ funct3Field w = 0b111#3 → ∀ i, decode w ≠ .ok i) ∧
    (opcodeField w = 0b0100011#7 →
      funct3Field w = 0b011#3 ∨ funct3Field w = 0b100#3 ∨ funct3Field w = 0b101#3 ∨ funct3Field w = 0b110#3 ∨
        funct3Field w = 0b111#3 → ∀ i, decode w ≠ .ok i) ∧
    (opcodeField w = 0b1100011#7 → funct3Field w = 0b010#3 ∨ funct3Field w = 0b011#3 → ∀ i, decode w ≠ .ok i) ∧
    (opcodeField w = 0b1100111#7 → funct3Field w ≠ 0b000#3 → ∀ i, decode w ≠ .ok i)

/-- R92: a word whose two low bits are not 11 matches no row, decodes to nothing, and ends the step that fetches it in
`IllegalInstruction`. -/
def Obligations.WordsNotEndingIn11SelectNothing : Prop :=
  ∀ w : Word, w.toNat % 4 ≠ 3 →
    (∀ r ∈ opcodeTable, w &&& r.mask ≠ r.pattern) ∧ (∀ i, decode w ≠ .ok i) ∧
    (∀ s : State, s.pc ≠ s.endPc → s.pc.toNat % 4 = 0 → fetch s = .ok w → step s = .fault (.illegalInstruction s.pc w))

/-- R91: a fetched word that matches no row of the table ends the step in `IllegalInstruction(pc, inst)`, before anything is
executed; the all-zero and the all-one word match no row. -/
def Obligations.UnmatchedWordRaisesIllegalInstruction : Prop :=
  (∀ (s : State) (w : Word), s.pc ≠ s.endPc → s.pc.toNat % 4 = 0 → fetch s = .ok w →
    (∀ r ∈ opcodeTable, w &&& r.mask ≠ r.pattern) → step s = .fault (.illegalInstruction s.pc w)) ∧
  (∀ r ∈ opcodeTable, 0x00000000#32 &&& r.mask ≠ r.pattern ∧ 0xFFFFFFFF#32 &&& r.mask ≠ r.pattern)

/-- R79 to R84: the immediates after extension, bit by bit, and the shift amount. -/
def Obligations.ImmediatesBitByBit : Prop :=
  ∀ (w : Word) (k : Nat), k < 32 →
    (signExt12 (immIField w)).getLsbD k = (if k ≤ 10 then w.getLsbD (k + 20) else w.getLsbD 31) ∧
    (signExt12 (immSField w)).getLsbD k
      = (if k ≤ 4 then w.getLsbD (k + 7) else if k ≤ 10 then w.getLsbD (k + 20) else w.getLsbD 31) ∧
    (signExt13 (immBField w)).getLsbD k
      = (if k = 0 then false else if k ≤ 4 then w.getLsbD (k + 7) else if k ≤ 10 then w.getLsbD (k + 20)
          else if k = 11 then w.getLsbD 7 else w.getLsbD 31) ∧
    (upperImm (immUField w)).getLsbD k = (if k ≤ 11 then false else w.getLsbD k) ∧
    (signExt21 (immJField w)).getLsbD k
      = (if k = 0 then false else if k ≤ 10 then w.getLsbD (k + 20) else if k = 11 then w.getLsbD 20
          else if k ≤ 19 then w.getLsbD k else w.getLsbD 31) ∧
    (shamtField w).toNat = w.toNat / 2 ^ 20 % 32

/-- Words written out bit by bit from R87 and R98, one a format and more where the bits of an immediate are scrambled, decode
to the instructions they stand for (the words of the vectors V-DEC and V-IMM). -/
def Obligations.WrittenOutWordsDecode : Prop :=
  decode 0b00000000110001011000011010110011#32 = .ok (.add 13 11 12) ∧
  decode 0b01000000011100110101001010110011#32 = .ok (.sra 5 6 7) ∧
  decode 0b11111111111100110000001010010011#32 = .ok (.addi 5 6 (-1)) ∧
  decode 0b01000000010000110101001010010011#32 = .ok (.srai 5 6 4) ∧
  decode 0b00000000100000010010011100000011#32 = .ok (.lw 14 2 8) ∧
  decode 0b11111110011100110001111100100011#32 = .ok (.sh 6 7 (-2)) ∧
  decode 0b00000000101010011000100001100011#32 = .ok (.beq 19 10 16) ∧
  decode 0b11111110011000101001110011100011#32 = .ok (.bne 5 6 (-8)) ∧
  decode 0b11011110101011011100001010110111#32 = .ok (.lui 5 0xDEADC) ∧
  decode 0b00000000000100000000000001101111#32 = .ok (.jal 0 2048) ∧
  decode 0b00000000000000001000000001100111#32 = .ok (.jalr 0 1 0)

/-! ### Registers and memory (spec/10_state.md, spec/20_memory.md) -/

/-- R21: x0 reads 0 in every state and ignores writes; x1 to x31 are ordinary. -/
def Obligations.RegisterZeroHardwiredOthersOrdinary : Prop :=
  ∀ (s : State) (r q : RegIdx) (v : Word),
    s.reg 0#5 = 0#32 ∧ s.setReg 0#5 v = s ∧
    (r ≠ 0#5 → (s.setReg r v).reg r = v) ∧ (q ≠ r → (s.setReg r v).reg q = s.reg q)

/-- R45: the three cases of `MemRead(addr, n)`, the misalignment test first, the bytes little-endian. -/
def Obligations.MemReadFollowsItsRule : Prop :=
  ∀ (s : State) (addr : Word) (sz : AccessSize),
    (addr.toNat % sz.bytes ≠ 0 → memRead s addr sz = .error (.loadAddrMisaligned s.pc addr)) ∧
    (addr.toNat % sz.bytes = 0 → (∃ k, k < sz.bytes ∧ s.inMem (addr.toNat + k) = false) →
      memRead s addr sz = .error (.loadAccessFault s.pc addr)) ∧
    (addr.toNat % sz.bytes = 0 → (∀ k, k < sz.bytes → s.inMem (addr.toNat + k) = true) →
      ∃ v, memRead s addr sz = .ok v ∧
        ∀ k, k < sz.bytes → v.extractLsb' (8 * k) 8 = s.mem.read (addr.toNat + k))

/-- R46: the three cases of `MemWrite(addr, n, v)`; all n bytes are written or none is, and no other byte changes. -/
def Obligations.MemWriteFollowsItsRule : Prop :=
  ∀ (s : State) (addr : Word) (sz : AccessSize) (v : BitVec sz.bits),
    (addr.toNat % sz.bytes ≠ 0 → memWrite s addr sz v = .error (.storeAddrMisaligned s.pc addr)) ∧
    (addr.toNat % sz.bytes = 0 →
      (∃ k, k < sz.bytes ∧ (s.inMem (addr.toNat + k) = false ∨ s.inCode (addr.toNat + k) = true)) →
      memWrite s addr sz v = .error (.storeAccessFault s.pc addr)) ∧
    (addr.toNat % sz.bytes = 0 →
      (∀ k, k < sz.bytes → s.inMem (addr.toNat + k) = true ∧ s.inCode (addr.toNat + k) = false) →
      ∃ t, memWrite s addr sz v = .ok t ∧
        (∀ k, k < sz.bytes → t.mem.read (addr.toNat + k) = v.extractLsb' (8 * k) 8) ∧
        (∀ a, a < addr.toNat ∨ addr.toNat + sz.bytes ≤ a → t.mem.read a = s.mem.read a) ∧
        sameRegisters s t ∧ t.pc = s.pc ∧ sameParameters s t)

/-- R47: the two cases of `Fetch(addr)` at the pc, the bytes little-endian. -/
def Obligations.FetchFollowsItsRule : Prop :=
  ∀ s : State,
    ((∃ k, k < 4 ∧ s.inCode (s.pc.toNat + k) = false) → fetch s = .error (.instrAccessFault s.pc)) ∧
    ((∀ k, k < 4 → s.inCode (s.pc.toNat + k) = true) →
      ∃ w, fetch s = .ok w ∧ w.toNat = leWord fun k => s.mem.read (s.pc.toNat + k))

/-- R42: the permissions of the map for an access of one byte and for a fetch, and that `CODE` lies inside `MEM`. -/
def Obligations.PermissionsOfTheMap : Prop :=
  ∀ (s : State) (a : Word) (b : Byte),
    (s.inCode a.toNat = true → s.inMem a.toNat = true) ∧
    ((∃ v, memRead s a .byte = .ok v) ↔ s.inMem a.toNat = true) ∧
    ((∃ t, memWrite s a .byte b = .ok t) ↔ s.inMem a.toNat = true ∧ s.inCode a.toNat = false) ∧
    ((∃ w, fetch (s.setPc a) = .ok w) ↔ ∀ k, k < 4 → s.inCode (a.toNat + k) = true)

/-- R52: memory has no notion of the width it was written with: what narrow reads see of a stored word, and what a wide read
sees of stored bytes. -/
def Obligations.MixedWidthViews : Prop :=
  (∀ (m : Memory) (a : Nat) (v : Word),
    (∀ k, k < 4 → (m.writeSized a .word v).readSized (a + k) .byte = v.extractLsb' (8 * k) 8) ∧
    (m.writeSized a .word v).readSized a .half = v.extractLsb' 0 16 ∧
    (m.writeSized a .word v).readSized (a + 2) .half = v.extractLsb' 16 16 ∧
    (m.writeSized a .word v).readSized a .word = v) ∧
  (∀ (m : Memory) (a : Nat) (b0 b1 b2 b3 : Byte),
    ((((m.writeSized a .byte b0).writeSized (a + 1) .byte b1).writeSized (a + 2) .byte b2).writeSized (a + 3) .byte b3).readSized
        a .word = wordOfBytes b0 b1 b2 b3)

/-! ### Register-register instructions (spec/40_reg_reg.md) -/

/-- R110, R111: ADD and SUB, modulo 2^32; the first source is the minuend. -/
def Obligations.AddAndSubWrap : Prop :=
  regRegOp .ADD 0b0000000#7 0b000#3 .add (fun a b v => v.toNat = (a.toNat + b.toNat) % 2 ^ 32) ∧
  regRegOp .SUB 0b0100000#7 0b000#3 .sub (fun a b v => v.toNat = (2 ^ 32 + a.toNat - b.toNat) % 2 ^ 32)

/-- R113, R114: SLT compares as signed and SLTU as unsigned numbers, and the result is 1 or 0. -/
def Obligations.SetLessThanSignedAndUnsigned : Prop :=
  regRegOp .SLT 0b0000000#7 0b010#3 .slt (fun a b v => v.toNat = if a.toInt < b.toInt then 1 else 0) ∧
  regRegOp .SLTU 0b0000000#7 0b011#3 .sltu (fun a b v => v.toNat = if a.toNat < b.toNat then 1 else 0)

/-- R112, R116, R117: the register shifts by the low five bits of x[rs2]; SRA is the floor of the signed quotient. -/
def Obligations.RegisterShiftsUseLowFiveBits : Prop :=
  regRegOp .SLL 0b0000000#7 0b001#3 .sll (fun a b v => v.toNat = a.toNat * 2 ^ (b.toNat % 32) % 2 ^ 32) ∧
  regRegOp .SRL 0b0000000#7 0b101#3 .srl (fun a b v => v.toNat = a.toNat / 2 ^ (b.toNat % 32)) ∧
  regRegOp .SRA 0b0100000#7 0b101#3 .sra (fun a b v => v.toInt = a.toInt / 2 ^ (b.toNat % 32))

/-- R115, R118, R119: XOR, OR and AND bit by bit. -/
def Obligations.RegisterLogicIsBitwise : Prop :=
  regRegOp .XOR 0b0000000#7 0b100#3 .xor
    (fun a b v => ∀ k, k < 32 → v.getLsbD k = (a.getLsbD k ^^ b.getLsbD k)) ∧
  regRegOp .OR 0b0000000#7 0b110#3 .or
    (fun a b v => ∀ k, k < 32 → v.getLsbD k = (a.getLsbD k || b.getLsbD k)) ∧
  regRegOp .AND 0b0000000#7 0b111#3 .and
    (fun a b v => ∀ k, k < 32 → v.getLsbD k = (a.getLsbD k && b.getLsbD k))

/-! ### Register-immediate instructions (spec/41_reg_imm.md) -/

/-- R130: ADDI adds the sign-extended immediate, modulo 2^32. -/
def Obligations.AddiAddsSignedImmediate : Prop :=
  regImmOp .ADDI 0b000#3 .addi (fun a i v => (v.toNat : Int) = ((a.toNat : Int) + i.toInt) % 2 ^ 32)

/-- R131, R132: SLTI compares as signed numbers; SLTIU sign-extends the immediate and then compares as unsigned. -/
def Obligations.SetLessThanImmediate : Prop :=
  regImmOp .SLTI 0b010#3 .slti (fun a i v => v.toNat = if a.toInt < i.toInt then 1 else 0) ∧
  regImmOp .SLTIU 0b011#3 .sltiu (fun a i v => v.toNat = if a.toNat < (sx i).toNat then 1 else 0)

/-- R133, R134, R135: the logical immediates; bits 31 to 12 of the immediate are copies of its bit 11. -/
def Obligations.LogicImmediateIsBitwise : Prop :=
  regImmOp .XORI 0b100#3 .xori
    (fun a i v => ∀ k, k < 32 → v.getLsbD k = (a.getLsbD k ^^ i.getLsbD (min k 11))) ∧
  regImmOp .ORI 0b110#3 .ori
    (fun a i v => ∀ k, k < 32 → v.getLsbD k = (a.getLsbD k || i.getLsbD (min k 11))) ∧
  regImmOp .ANDI 0b111#3 .andi
    (fun a i v => ∀ k, k < 32 → v.getLsbD k = (a.getLsbD k && i.getLsbD (min k 11)))

/-- R136, R137, R138: the shift immediates. -/
def Obligations.ShiftImmediateByAmount : Prop :=
  shiftImmOp .SLLI 0b0000000#7 0b001#3 .slli (fun a n v => v.toNat = a.toNat * 2 ^ n % 2 ^ 32) ∧
  shiftImmOp .SRLI 0b0000000#7 0b101#3 .srli (fun a n v => v.toNat = a.toNat / 2 ^ n) ∧
  shiftImmOp .SRAI 0b0100000#7 0b101#3 .srai
    (fun a n v => ∀ k, k < 32 → v.getLsbD k = if k + n < 32 then a.getLsbD (k + n) else a.getLsbD 31)

/-! ### Loads and stores (spec/42_loads.md, spec/43_stores.md) -/

/-- R151, R154: LB sign-extends the byte and LBU zero-extends it. -/
def Obligations.LoadByteExtends : Prop :=
  loadOp .LB 1 0b000#3 .lb (fun b v => v.toInt = (b 0).toInt) ∧
  loadOp .LBU 1 0b100#3 .lbu (fun b v => v.toNat = (b 0).toNat)

/-- R152, R155: LH sign-extends the halfword and LHU zero-extends it. -/
def Obligations.LoadHalfExtends : Prop :=
  loadOp .LH 2 0b001#3 .lh
    (fun b v => v.toInt = if leHalf b < 2 ^ 15 then (leHalf b : Int) else (leHalf b : Int) - 2 ^ 16) ∧
  loadOp .LHU 2 0b101#3 .lhu (fun b v => v.toNat = leHalf b) ∧
  loadMisaligned 2 .lh ∧ loadMisaligned 2 .lhu

/-- R153: LW loads the four bytes, the lowest address the least significant. -/
def Obligations.LoadWordLittleEndian : Prop :=
  loadOp .LW 4 0b010#3 .lw (fun b v => v.toNat = leWord b) ∧ loadMisaligned 4 .lw

/-- R161: SB. -/
def Obligations.StoreByteWritesOneByte : Prop := storeOp .SB 1 0b000#3 .sb

/-- R162: SH. -/
def Obligations.StoreHalfWritesTwoBytes : Prop := storeOp .SH 2 0b001#3 .sh ∧ storeMisaligned 2 .sh

/-- R163: SW. -/
def Obligations.StoreWordWritesFourBytes : Prop := storeOp .SW 4 0b010#3 .sw ∧ storeMisaligned 4 .sw

/-- R54, R57, R255: a word stored is the word the very next load of the same address returns, whatever registers and offsets
form the address. -/
def Obligations.LoadAfterStoreReturnsStoredWord : Prop :=
  ∀ (s t : State) (rs1 rs2 rd base : RegIdx) (imm off : BitVec 12),
    exec (.sw rs1 rs2 imm) s = .next t → effAddr t base off = effAddr s rs1 imm →
    seqWritesOnlyRd [.lw rd base off] t rd (s.reg rs2)

/-! ### Branches, upper immediates, jumps (spec/44_branches.md to spec/46_jumps.md) -/

/-- R172, R173: BEQ and BNE. -/
def Obligations.BranchOnEquality : Prop :=
  branchOp .BEQ 0b000#3 .beq (fun a b => a = b) ∧ branchOp .BNE 0b001#3 .bne (fun a b => a ≠ b)

/-- R174, R175: BLT and BGE, as signed numbers. -/
def Obligations.BranchOnSignedOrder : Prop :=
  branchOp .BLT 0b100#3 .blt (fun a b => a.toInt < b.toInt) ∧ branchOp .BGE 0b101#3 .bge (fun a b => b.toInt ≤ a.toInt)

/-- R176, R177: BLTU and BGEU, as unsigned numbers. -/
def Obligations.BranchOnUnsignedOrder : Prop :=
  branchOp .BLTU 0b110#3 .bltu (fun a b => a.toNat < b.toNat) ∧ branchOp .BGEU 0b111#3 .bgeu (fun a b => b.toNat ≤ a.toNat)

/-- R190: LUI writes the 20 bits above twelve zeros and reads no register. -/
def Obligations.LuiLoadsUpperImmediate : Prop :=
  ∀ (s : State) (rd : RegIdx) (imm : BitVec 20),
    spelled s.pc .LUI [.reg rd, .num imm.toNat] (imm ++ rd ++ 0b0110111#7) (.lui rd imm) ∧
    writesOnlyRd (.lui rd imm) s rd (fun v => v.toNat = imm.toNat * 2 ^ 12)

/-- R191: AUIPC adds the upper immediate to its own address, modulo 2^32. -/
def Obligations.AuipcAddsToOwnAddress : Prop :=
  ∀ (s : State) (rd : RegIdx) (imm : BitVec 20),
    spelled s.pc .AUIPC [.reg rd, .num imm.toNat] (imm ++ rd ++ 0b0010111#7) (.auipc rd imm) ∧
    writesOnlyRd (.auipc rd imm) s rd (fun v => v.toNat = (s.pc.toNat + imm.toNat * 2 ^ 12) % 2 ^ 32)

/-- R200, R202: JAL links pc + 4 and goes to pc + immJ where that is a multiple of 4; elsewhere it faults and links nothing. -/
def Obligations.JalLinksAndJumps : Prop :=
  ∀ (s : State) (rd : RegIdx) (imm : BitVec 21), imm.getLsbD 0 = false →
    spelled s.pc .JAL [.reg rd, .label (s.pc + sx imm)]
      (imm.extractLsb' 20 1 ++ imm.extractLsb' 1 10 ++ imm.extractLsb' 11 1 ++ imm.extractLsb' 12 8 ++ rd ++ 0b1101111#7)
      (.jal rd imm) ∧
    ((s.pc + sx imm).toNat % 4 = 0 →
      ∃ t, exec (.jal rd imm) s = .next t ∧ t.pc = s.pc + sx imm ∧ registersAfter s t rd (s.pc + 4#32) ∧ sameMemory s t ∧
        sameParameters s t) ∧
    ((s.pc + sx imm).toNat % 4 ≠ 0 → exec (.jal rd imm) s = .fault (.instrAddrMisaligned s.pc (s.pc + sx imm)))

/-- R201, R202: JALR goes to x[rs1] + immI with bit 0 cleared, read before rd is written, and links pc + 4; it faults exactly
when bit 1 of the sum is set. -/
def Obligations.JalrLinksAndJumps : Prop :=
  ∀ (s : State) (rd rs1 : RegIdx) (imm : BitVec 12),
    spelled s.pc .JALR [.reg rd, .mem imm.toInt rs1] (imm ++ rs1 ++ 0b000#3 ++ rd ++ 0b1100111#7) (.jalr rd rs1 imm) ∧
    ((s.reg rs1 + sx imm).getLsbD 1 = false →
      ∃ t, exec (.jalr rd rs1 imm) s = .next t ∧ t.pc.toNat = (s.reg rs1 + sx imm).toNat / 2 * 2 ∧
        registersAfter s t rd (s.pc + 4#32) ∧ sameMemory s t ∧ sameParameters s t) ∧
    ((s.reg rs1 + sx imm).getLsbD 1 = true →
      ∃ target : Word, target.toNat = (s.reg rs1 + sx imm).toNat / 2 * 2 ∧
        exec (.jalr rd rs1 imm) s = .fault (.instrAddrMisaligned s.pc target))

/-- R203: a function called by JAL with the link in x1 that returns by `JALR x0, 0(x1)`, x1 being what it was, comes back to
the instruction after the call. -/
def Obligations.ReturnComesBackAfterTheCall : Prop :=
  ∀ (s t u : State) (imm : BitVec 21), s.pc.toNat % 4 = 0 → exec (.jal 1#5 imm) s = .next t → u.reg 1#5 = t.reg 1#5 →
    movesOnlyPc (.jalr 0#5 1#5 0#12) u (s.pc + 4#32)

/-! ### Constants, pc-relative addresses, pseudo-instructions (R192, R193, R97, R94) -/

/-- R192: LUI and ADDI build any 32-bit constant. -/
def Obligations.LuiAddiBuildsAnyConstant : Prop :=
  ∀ (s : State) (rd : RegIdx) (c lo : Word) (hi : BitVec 20), rd ≠ 0#5 →
    lo = sx (c.extractLsb' 0 12) → hi = (c - lo).extractLsb' 12 20 →
    seqWritesOnlyRd [.lui rd hi, .addi rd rd (c.extractLsb' 0 12)] s rd c

/-- R193, R97: AUIPC with ADDI reaches every address (`la`), and AUIPC with JALR every multiple of 4 (`call`, which links in
x1, and `tail`, which uses up x6). -/
def Obligations.AuipcPairReachesAnyAddress : Prop :=
  ∀ (s : State) (rd : RegIdx) (a : Word),
    (rd ≠ 0#5 → ∃ is, Pseudo.expand s.pc (.la rd a) = some is ∧ seqWritesOnlyRd is s rd a) ∧
    (a.toNat % 4 = 0 →
      ∃ is t, Pseudo.expand s.pc (.call a) = some is ∧ execSeq is s = .next t ∧ t.pc = a ∧
        registersAfter s t 1#5 (s.pc + 8#32) ∧ sameMemory s t ∧ sameParameters s t) ∧
    (a.toNat % 4 = 0 →
      ∃ is t, Pseudo.expand s.pc (.tail a) = some is ∧ execSeq is s = .next t ∧ t.pc = a ∧
        (∀ r, r ≠ 6#5 → t.reg r = s.reg r) ∧ sameMemory s t ∧ sameParameters s t)

/-- R97: what the pseudo-instructions that write a register leave in it. -/
def Obligations.RegisterPseudoInstructions : Prop :=
  ∀ (s : State) (rd rs : RegIdx) (c : Word),
    (rd ≠ 0#5 → ∃ is, Pseudo.expand s.pc (.li rd c) = some is ∧ seqWritesOnlyRd is s rd c) ∧
    (∃ is, Pseudo.expand s.pc (.mv rd rs) = some is ∧ seqWritesOnlyRd is s rd (s.reg rs)) ∧
    (∃ is, Pseudo.expand s.pc (.not rd rs) = some is ∧ seqWritesOnlyRd is s rd (~~~ s.reg rs)) ∧
    (∃ is, Pseudo.expand s.pc (.neg rd rs) = some is ∧ seqWritesOnlyRd is s rd (- s.reg rs)) ∧
    (∃ is, Pseudo.expand s.pc (.seqz rd rs) = some is ∧ seqWritesOnlyRd is s rd (if s.reg rs = 0#32 then 1 else 0)) ∧
    (∃ is, Pseudo.expand s.pc (.snez rd rs) = some is ∧ seqWritesOnlyRd is s rd (if s.reg rs ≠ 0#32 then 1 else 0)) ∧
    (∃ is, Pseudo.expand s.pc (.sltz rd rs) = some is ∧ seqWritesOnlyRd is s rd (if (s.reg rs).toInt < 0 then 1 else 0)) ∧
    (∃ is, Pseudo.expand s.pc (.sgtz rd rs) = some is ∧ seqWritesOnlyRd is s rd (if 0 < (s.reg rs).toInt then 1 else 0))

/-- R97: the pseudo-instructions that branch, on every label in reach that is a multiple of 4. -/
def Obligations.BranchPseudoInstructions : Prop :=
  ∀ (s : State) (rs rt : RegIdx) (imm : BitVec 13), imm.getLsbD 0 = false → (s.pc + sx imm).toNat % 4 = 0 →
    branchPseudo s imm (.beqz rs) (s.reg rs = 0#32) ∧ branchPseudo s imm (.bnez rs) (s.reg rs ≠ 0#32) ∧
    branchPseudo s imm (.blez rs) ((s.reg rs).toInt ≤ 0) ∧ branchPseudo s imm (.bgez rs) (0 ≤ (s.reg rs).toInt) ∧
    branchPseudo s imm (.bltz rs) ((s.reg rs).toInt < 0) ∧ branchPseudo s imm (.bgtz rs) (0 < (s.reg rs).toInt) ∧
    branchPseudo s imm (.bgt rs rt) ((s.reg rt).toInt < (s.reg rs).toInt) ∧
    branchPseudo s imm (.ble rs rt) ((s.reg rs).toInt ≤ (s.reg rt).toInt) ∧
    branchPseudo s imm (.bgtu rs rt) ((s.reg rt).toNat < (s.reg rs).toNat) ∧
    branchPseudo s imm (.bleu rs rt) ((s.reg rs).toNat ≤ (s.reg rt).toNat)

/-- R97: the pseudo-instructions that jump by one instruction: `j` and `jal` to every label in reach, `jr`, `jalr` and `ret`
to the address in a register. -/
def Obligations.JumpPseudoInstructions : Prop :=
  ∀ s : State,
    (∀ imm : BitVec 21, imm.getLsbD 0 = false → (s.pc + sx imm).toNat % 4 = 0 →
      jumpPseudo s (.j (s.pc + sx imm)) 0#5 (s.pc + sx imm) ∧ jumpPseudo s (.jal (s.pc + sx imm)) 1#5 (s.pc + sx imm)) ∧
    (∀ rs : RegIdx, (s.reg rs).toNat % 4 = 0 →
      jumpPseudo s (.jr rs) 0#5 (s.reg rs) ∧ jumpPseudo s (.jalr rs) 1#5 (s.reg rs)) ∧
    ((s.reg 1#5).toNat % 4 = 0 → jumpPseudo s .ret 0#5 (s.reg 1#5))

/-- R94: ADDI x0, x0, 0, the word 0x00000013, changes nothing but the pc; and an instruction whose rd is x0 changes no
register. -/
def Obligations.DestinationZeroChangesNoRegister : Prop :=
  decode 0x00000013#32 = .ok (.addi 0 0 0) ∧ (∀ pc, Pseudo.expand pc .nop = some [.addi 0 0 0]) ∧
  (∀ s : State, movesOnlyPc (.addi 0 0 0) s (s.pc + 4#32)) ∧
  (∀ (i : Instr) (s t : State), i.dest = some 0#5 → exec i s = .next t → sameRegisters s t)

/-! ### The whole machine (spec/00_scope.md R15, spec/10_state.md R25, R31, R33, spec/60_exceptions.md) -/

/-- A step runs the decoded instruction: away from `END_PC`, at an aligned pc whose four bytes are in `CODE`, the step is the
rule of the instruction that those bytes decode to, and that instruction is well formed. -/
def Obligations.StepRunsDecodedInstruction : Prop :=
  ∀ (s : State) (i : Instr), s.pc ≠ s.endPc → s.pc.toNat % 4 = 0 → (∀ k, k < 4 → s.inCode (s.pc.toNat + k) = true) →
    decode (wordOfBytes (s.mem.read s.pc.toNat) (s.mem.read (s.pc.toNat + 1)) (s.mem.read (s.pc.toNat + 2))
      (s.mem.read (s.pc.toNat + 3))) = .ok i →
    step s = exec i s ∧ i.wellFormed = true

/-- The five parts of a step in the order of R15: the end of the run, the misaligned pc, the fetch, the decoding, the rule of
the instruction. Two clauses rest on the model's own reading: R15 says "no step" at `END_PC`, and that this is answered by the
refusal `runEnded` is the model's choice (log entry 5, DESIGN CHOICE); R15 gives one value on a misaligned pc, and that the pc
is recorded as both the pc and the target is the model's inference (log entry 15, DEDUCED). -/
def Obligations.StepTestsInOrder : Prop :=
  ∀ s : State,
    (s.pc = s.endPc → step s = .refused .runEnded) ∧
    (s.pc ≠ s.endPc → s.pc.toNat % 4 ≠ 0 → step s = .fault (.instrAddrMisaligned s.pc s.pc)) ∧
    (s.pc ≠ s.endPc → s.pc.toNat % 4 = 0 → (∃ k, k < 4 ∧ s.inCode (s.pc.toNat + k) = false) →
      step s = .fault (.instrAccessFault s.pc)) ∧
    (∀ (w : Word) (e : Rejection), s.pc ≠ s.endPc → s.pc.toNat % 4 = 0 →
      (∀ k, k < 4 → s.inCode (s.pc.toNat + k) = true) →
      w.toNat = leWord (fun k => s.mem.read (s.pc.toNat + k)) → decode w = .error e →
      step s = .fault (.illegalInstruction s.pc w)) ∧
    (∀ (w : Word) (i : Instr), s.pc ≠ s.endPc → s.pc.toNat % 4 = 0 →
      (∀ k, k < 4 → s.inCode (s.pc.toNat + k) = true) →
      w.toNat = leWord (fun k => s.mem.read (s.pc.toNat + k)) → decode w = .ok i → step s = exec i s)

/-- No instruction is refused: a step is refused exactly when the pc equals `END_PC`. R254 and R15 say that there is no step
there; that the model answers it by the refusal `runEnded` is the model's choice (log entry 5, DESIGN CHOICE). -/
def Obligations.OnlyTheEndOfTheRunIsRefused : Prop :=
  ∀ (s : State) (r : Refusal), step s = .refused r ↔ s.pc = s.endPc ∧ r = .runEnded

/-- R254: a run has one of three fates: it goes on, it ended at `END_PC`, or it faulted. -/
def Obligations.RunHasOneOfThreeFates : Prop :=
  ∀ (k : Nat) (s : State),
    (∃ t, run k s = .running t ∧ t.pc ≠ t.endPc) ∨ (∃ t, run k s = .ended t ∧ t.pc = t.endPc) ∨
    (∃ f t, run k s = .faulted f t ∧ step t = .fault f)

/-- R211, R215: a run that faults stops with the state as it was before the faulting instruction: every earlier step has
completed, and that state's own step is the fault. The fault records the pc of that state; on a misaligned pc this is the
model's inference (log entry 15, DEDUCED), since R15 gives one value there. That a faulted run keeps the state outside the
fault is log entry 9 (DEDUCED). -/
def Obligations.FaultedRunKeepsTheStateBefore : Prop :=
  ∀ (k : Nat) (s t : State) (f : Fault), run k s = .faulted f t →
    ∃ j, j < k ∧ Host.Core.run Sys2Proof.core j s = .next t ∧ step t = .fault f ∧ f.pcOf = t.pc

/-- The invariant `State.Inv` holds after reset, and the model's reset state is the launch state of its example arguments
with every register 0 (log entries 2, 3, 4: the model's choice). -/
def Obligations.ResetMeetsInvariant : Prop :=
  State.reset.Inv ∧
  State.reset = State.launch ⟨Config.exampleMap, Config.exampleResetPc, Config.exampleEndPc, Config.exampleRegs, []⟩ ∧
  ∀ r, State.reset.reg r = 0#32

/-- R32, R250: a launch state holds its arguments, for all of them: pc, registers, `END_PC`, and the bytes of `INIT_MEM` at the
addresses of `MEM`; under the constraints of R250 it meets the invariant and its first instruction can be fetched. -/
def Obligations.LaunchStateHoldsItsArguments : Prop :=
  ∀ l : LaunchArgs,
    (State.launch l).pc = l.resetPc ∧ (State.launch l).reg 0#5 = 0#32 ∧ (State.launch l).regs = l.initX ∧
    (State.launch l).endPc = l.endPc ∧ (State.launch l).map = l.map ∧
    (∀ c ∈ l.initMem, (State.launch l).inMem c.1 = true → l.initMem.Pairwise (fun d e => d.1 ≠ e.1) →
      (State.launch l).mem.read c.1 = c.2) ∧
    (l.ok = true → (State.launch l).Inv ∧ ∃ w, fetch (State.launch l) = .ok w)

/-- Every step keeps the invariant: the pc stays a multiple of 4 (R25), `END_PC` too (R31), and memory stays inside `MEM`
(R31) and in its canonical form, which is the model's own (log entry 4). -/
def Obligations.StepKeepsInvariant : Prop :=
  ∀ s t : State, s.Inv → step s = .next t → t.Inv

/-- R60: the program text cannot change during a run: after any number of steps from any state, every byte of `CODE` reads as
before, and `CODE` is the same. -/
def Obligations.ProgramTextNeverChanges : Prop :=
  ∀ (k : Nat) (s t : State), Host.Core.run Sys2Proof.core k s = .next t →
    ∀ a, t.inCode a = s.inCode a ∧ (s.inCode a = true → t.mem.read a = s.mem.read a)

/-- R31: no step changes `MEM`, `CODE` or `END_PC`. -/
def Obligations.StepKeepsParameters : Prop :=
  ∀ s t : State, step s = .next t → sameParameters s t

/-- R33, R57: no instruction but SB, SH and SW changes memory. -/
def Obligations.OnlyStoresChangeMemory : Prop :=
  ∀ (i : Instr) (s t : State), exec i s = .next t → i.mnemonic ≠ .SB → i.mnemonic ≠ .SH → i.mnemonic ≠ .SW → t.mem = s.mem

/-- R33: no instruction changes a general register but its destination; stores and branches have none. -/
def Obligations.OnlyTheDestinationRegisterChanges : Prop :=
  ∀ (i : Instr) (s t : State) (r : RegIdx), exec i s = .next t → i.dest ≠ some r → t.reg r = s.reg r

/-- R25: how each instruction sets the next pc. -/
def Obligations.NextPcOfEveryInstruction : Prop :=
  ∀ (i : Instr) (s t : State), exec i s = .next t →
    match i with
    | .beq a b imm => t.pc = if s.reg a = s.reg b then s.pc + sx imm else s.pc + 4#32
    | .bne a b imm => t.pc = if s.reg a ≠ s.reg b then s.pc + sx imm else s.pc + 4#32
    | .blt a b imm => t.pc = if (s.reg a).toInt < (s.reg b).toInt then s.pc + sx imm else s.pc + 4#32
    | .bge a b imm => t.pc = if (s.reg b).toInt ≤ (s.reg a).toInt then s.pc + sx imm else s.pc + 4#32
    | .bltu a b imm => t.pc = if (s.reg a).toNat < (s.reg b).toNat then s.pc + sx imm else s.pc + 4#32
    | .bgeu a b imm => t.pc = if (s.reg b).toNat ≤ (s.reg a).toNat then s.pc + sx imm else s.pc + 4#32
    | .jal _ imm => t.pc = s.pc + sx imm
    | .jalr _ a imm => t.pc.toNat = (s.reg a + sx imm).toNat / 2 * 2
    | _ => t.pc = s.pc + 4#32

/-- R210: which instruction raises which fault. -/
def Obligations.FaultsByInstruction : Prop :=
  ∀ (i : Instr) (s : State) (f : Fault), exec i s = .fault f →
    match f with
    | .instrAddrMisaligned pc target => pc = s.pc ∧ target.toNat % 4 ≠ 0 ∧
        i.mnemonic ∈ [.BEQ, .BNE, .BLT, .BGE, .BLTU, .BGEU, .JAL, .JALR]
    | .instrAccessFault _ => False
    | .illegalInstruction _ _ => False
    | .loadAddrMisaligned pc _ => pc = s.pc ∧ i.mnemonic ∈ [.LH, .LHU, .LW]
    | .loadAccessFault pc _ => pc = s.pc ∧ i.mnemonic ∈ [.LB, .LBU, .LH, .LHU, .LW]
    | .storeAddrMisaligned pc _ => pc = s.pc ∧ i.mnemonic ∈ [.SH, .SW]
    | .storeAccessFault pc _ => pc = s.pc ∧ i.mnemonic ∈ [.SB, .SH, .SW]

/-- The model's own way of placing an instruction (log entries 6, 11) does what it says: from every state with an aligned pc,
the next step runs exactly the instruction that the word decodes to. -/
def Obligations.PlacedWordIsTheNextInstruction : Prop :=
  ∀ (s : State) (w : Word) (i : Instr), s.pc.toNat % 4 = 0 → decode w = .ok i →
    step (s.withFetchWord 32 w.toNat) = exec i (s.withFetchWord 32 w.toNat)
end

