-- ==== Sys2Proof/Laws/Assembler.lean ====
section
/-! SUPPORT. An immediate written as its number assembles to itself (spec/30_encoding.md R96), and a label at the
branch's own address plus the offset gives the offset. -/

namespace Sys2Proof.Machine

theorem imm12Of_toInt (i : BitVec 12) : imm12Of i.toInt = some i := by
  have h1 := BitVec.le_toInt i
  have h2 := BitVec.toInt_lt (x := i)
  unfold imm12Of
  rw [if_pos ⟨by simpa using h1, by simp at h2; omega⟩, BitVec.ofInt_toInt]

theorem shamtOf_toNat (i : BitVec 5) : shamtOf (i.toNat : Int) = some i := by
  have h := i.isLt
  unfold shamtOf
  rw [if_pos ⟨by omega, by omega⟩]
  simp

theorem imm20Of_toNat (i : BitVec 20) : imm20Of (i.toNat : Int) = some i := by
  have h := i.isLt
  unfold imm20Of
  rw [if_pos ⟨by omega, by omega⟩]
  simp

/-- An immediate with bit 0 zero is an even number. -/
theorem toInt_emod_two {n : Nat} (i : BitVec (n + 1)) (h : i.getLsbD 0 = false) : i.toInt % 2 = 0 := by
  have h0 : i.toNat % 2 = 0 := by
    have := BitVec.getLsbD_eq_getElem (x := i) (i := 0) (by omega)
    have e : i.toNat.testBit 0 = false := by simpa [BitVec.getLsbD] using h
    simpa [Nat.testBit_zero] using e
  have e2 : (2 : Int) ∣ ((2 ^ (n + 1) : Nat) : Int) := ⟨2 ^ n, by push_cast; ring⟩
  rw [BitVec.toInt_eq_toNat_cond]
  split <;> omega

theorem immBOf_toInt (i : BitVec 13) (h : i.getLsbD 0 = false) : immBOf i.toInt = some i := by
  have h1 := BitVec.le_toInt i
  have h2 := BitVec.toInt_lt (x := i)
  have h3 := toInt_emod_two i h
  unfold immBOf
  rw [if_pos ⟨by simpa using h1, by simp at h2; omega, h3⟩, BitVec.ofInt_toInt]

theorem immJOf_toInt (i : BitVec 21) (h : i.getLsbD 0 = false) : immJOf i.toInt = some i := by
  have h1 := BitVec.le_toInt i
  have h2 := BitVec.toInt_lt (x := i)
  have h3 := toInt_emod_two i h
  unfold immJOf
  rw [if_pos ⟨by simpa using h1, by simp at h2; omega, h3⟩, BitVec.ofInt_toInt]

/-- The distance to an address that lies a sign-extended branch offset away is that offset. -/
theorem distanceTo_branch (pc : Word) (i : BitVec 13) : distanceTo pc (pc + i.signExtend 32) = i.toInt := by
  unfold distanceTo
  rw [BitVec.add_comm, BitVec.add_sub_cancel, BitVec.toInt_signExtend_of_le (by omega)]

/-- The same for a JAL offset. -/
theorem distanceTo_jump (pc : Word) (i : BitVec 21) : distanceTo pc (pc + i.signExtend 32) = i.toInt := by
  unfold distanceTo
  rw [BitVec.add_comm, BitVec.add_sub_cancel, BitVec.toInt_signExtend_of_le (by omega)]

end Sys2Proof.Machine
end

