-- ==== Sys2Proof/Laws/Decode.lean ====
section
/-! SUPPORT. Cutting a field out of a packed word gives the field back, and packing the fields of a word gives the word
back (spec/30_encoding.md R72 to R84, R98): the facts that every statement about `decode` and `encode` rests on. -/

namespace Sys2Proof

section
variable (f7 : BitVec 7) (rs2 rs1 rd : RegIdx) (f3 : BitVec 3) (op : BitVec 7)
variable (i12 : BitVec 12) (i13 : BitVec 13) (i20 : BitVec 20) (i21 : BitVec 21) (w : Word)

/-! ### The bits of a packed word -/

theorem getLsbD_packR (k : Nat) : (packR f7 rs2 rs1 f3 rd op).getLsbD k
    = if k < 7 then op.getLsbD k else if k < 12 then rd.getLsbD (k - 7) else if k < 15 then f3.getLsbD (k - 12)
      else if k < 20 then rs1.getLsbD (k - 15) else if k < 25 then rs2.getLsbD (k - 20) else f7.getLsbD (k - 25) := by
  show BitVec.getLsbD (w := 7 + 5 + 5 + 3 + 5 + 7) (f7 ++ rs2 ++ rs1 ++ f3 ++ rd ++ op) k = _
  simp only [BitVec.getLsbD_append, Nat.sub_sub]
  grind

theorem packI_eq_packR : packI i12 rs1 f3 rd op = packR (i12.extractLsb' 5 7) (i12.extractLsb' 0 5) rs1 f3 rd op := by
  refine BitVec.eq_of_getLsbD_eq fun k hk => ?_
  rw [getLsbD_packR]
  show BitVec.getLsbD (w := 12 + 5 + 3 + 5 + 7) (i12 ++ rs1 ++ f3 ++ rd ++ op) k = _
  simp only [BitVec.getLsbD_append, BitVec.getLsbD_extractLsb']
  grind

theorem packS_eq_packR : packS i12 rs2 rs1 f3 op = packR (i12.extractLsb' 5 7) rs2 rs1 f3 (i12.extractLsb' 0 5) op := rfl

theorem packB_eq_packR : packB i13 rs2 rs1 f3 op
    = packR (i13.extractLsb' 12 1 ++ i13.extractLsb' 5 6) rs2 rs1 f3 (i13.extractLsb' 1 4 ++ i13.extractLsb' 11 1) op := by
  refine BitVec.eq_of_getLsbD_eq fun k hk => ?_
  rw [getLsbD_packR]
  show BitVec.getLsbD (w := 1 + 6 + 5 + 5 + 3 + 4 + 1 + 7) (i13.extractLsb' 12 1 ++ i13.extractLsb' 5 6 ++ rs2 ++ rs1 ++ f3
    ++ i13.extractLsb' 1 4 ++ i13.extractLsb' 11 1 ++ op) k = _
  simp only [BitVec.getLsbD_append, BitVec.getLsbD_extractLsb']
  grind

theorem packU_eq_packR : packU i20 rd op
    = packR (i20.extractLsb' 13 7) (i20.extractLsb' 8 5) (i20.extractLsb' 3 5) (i20.extractLsb' 0 3) rd op := by
  refine BitVec.eq_of_getLsbD_eq fun k hk => ?_
  rw [getLsbD_packR]
  show BitVec.getLsbD (w := 20 + 5 + 7) (i20 ++ rd ++ op) k = _
  simp only [BitVec.getLsbD_append, BitVec.getLsbD_extractLsb']
  grind

theorem packJ_eq_packR : packJ i21 rd op
    = packR (i21.extractLsb' 20 1 ++ i21.extractLsb' 5 6) (i21.extractLsb' 1 4 ++ i21.extractLsb' 11 1)
        (i21.extractLsb' 15 5) (i21.extractLsb' 12 3) rd op := by
  refine BitVec.eq_of_getLsbD_eq fun k hk => ?_
  rw [getLsbD_packR]
  show BitVec.getLsbD (w := 1 + 10 + 1 + 8 + 5 + 7) (i21.extractLsb' 20 1 ++ i21.extractLsb' 1 10 ++ i21.extractLsb' 11 1
    ++ i21.extractLsb' 12 8 ++ rd ++ op) k = _
  simp only [BitVec.getLsbD_append, BitVec.getLsbD_extractLsb']
  grind

/-! ### Fields of a packed word -/

@[simp] theorem opcodeField_packR : opcodeField (packR f7 rs2 rs1 f3 rd op) = op := by
  refine BitVec.eq_of_getLsbD_eq fun k hk => ?_
  simp only [opcodeField, BitVec.getLsbD_extractLsb', getLsbD_packR]
  grind

@[simp] theorem rdField_packR : rdField (packR f7 rs2 rs1 f3 rd op) = rd := by
  refine BitVec.eq_of_getLsbD_eq fun k hk => ?_
  simp only [rdField, BitVec.getLsbD_extractLsb', getLsbD_packR]
  grind

@[simp] theorem funct3Field_packR : funct3Field (packR f7 rs2 rs1 f3 rd op) = f3 := by
  refine BitVec.eq_of_getLsbD_eq fun k hk => ?_
  simp only [funct3Field, BitVec.getLsbD_extractLsb', getLsbD_packR]
  grind

@[simp] theorem rs1Field_packR : rs1Field (packR f7 rs2 rs1 f3 rd op) = rs1 := by
  refine BitVec.eq_of_getLsbD_eq fun k hk => ?_
  simp only [rs1Field, BitVec.getLsbD_extractLsb', getLsbD_packR]
  grind

@[simp] theorem rs2Field_packR : rs2Field (packR f7 rs2 rs1 f3 rd op) = rs2 := by
  refine BitVec.eq_of_getLsbD_eq fun k hk => ?_
  simp only [rs2Field, BitVec.getLsbD_extractLsb', getLsbD_packR]
  grind

@[simp] theorem shamtField_packR : shamtField (packR f7 rs2 rs1 f3 rd op) = rs2 := by
  refine BitVec.eq_of_getLsbD_eq fun k hk => ?_
  simp only [shamtField, BitVec.getLsbD_extractLsb', getLsbD_packR]
  grind

@[simp] theorem funct7Field_packR : funct7Field (packR f7 rs2 rs1 f3 rd op) = f7 := by
  refine BitVec.eq_of_getLsbD_eq fun k hk => ?_
  simp only [funct7Field, BitVec.getLsbD_extractLsb', getLsbD_packR]
  grind

@[simp] theorem opcodeField_packI : opcodeField (packI i12 rs1 f3 rd op) = op := by rw [packI_eq_packR, opcodeField_packR]
@[simp] theorem rdField_packI : rdField (packI i12 rs1 f3 rd op) = rd := by rw [packI_eq_packR, rdField_packR]
@[simp] theorem funct3Field_packI : funct3Field (packI i12 rs1 f3 rd op) = f3 := by rw [packI_eq_packR, funct3Field_packR]
@[simp] theorem rs1Field_packI : rs1Field (packI i12 rs1 f3 rd op) = rs1 := by rw [packI_eq_packR, rs1Field_packR]

@[simp] theorem opcodeField_packS : opcodeField (packS i12 rs2 rs1 f3 op) = op := by rw [packS_eq_packR, opcodeField_packR]
@[simp] theorem funct3Field_packS : funct3Field (packS i12 rs2 rs1 f3 op) = f3 := by rw [packS_eq_packR, funct3Field_packR]
@[simp] theorem rs1Field_packS : rs1Field (packS i12 rs2 rs1 f3 op) = rs1 := by rw [packS_eq_packR, rs1Field_packR]
@[simp] theorem rs2Field_packS : rs2Field (packS i12 rs2 rs1 f3 op) = rs2 := by rw [packS_eq_packR, rs2Field_packR]

@[simp] theorem opcodeField_packB : opcodeField (packB i13 rs2 rs1 f3 op) = op := by rw [packB_eq_packR, opcodeField_packR]
@[simp] theorem funct3Field_packB : funct3Field (packB i13 rs2 rs1 f3 op) = f3 := by rw [packB_eq_packR, funct3Field_packR]
@[simp] theorem rs1Field_packB : rs1Field (packB i13 rs2 rs1 f3 op) = rs1 := by rw [packB_eq_packR, rs1Field_packR]
@[simp] theorem rs2Field_packB : rs2Field (packB i13 rs2 rs1 f3 op) = rs2 := by rw [packB_eq_packR, rs2Field_packR]

@[simp] theorem opcodeField_packU : opcodeField (packU i20 rd op) = op := by rw [packU_eq_packR, opcodeField_packR]
@[simp] theorem rdField_packU : rdField (packU i20 rd op) = rd := by rw [packU_eq_packR, rdField_packR]

@[simp] theorem opcodeField_packJ : opcodeField (packJ i21 rd op) = op := by rw [packJ_eq_packR, opcodeField_packR]
@[simp] theorem rdField_packJ : rdField (packJ i21 rd op) = rd := by rw [packJ_eq_packR, rdField_packR]

@[simp] theorem immIField_packI : immIField (packI i12 rs1 f3 rd op) = i12 := by
  refine BitVec.eq_of_getLsbD_eq fun k hk => ?_
  simp only [immIField, packI_eq_packR, BitVec.getLsbD_extractLsb', getLsbD_packR]
  grind

@[simp] theorem immSField_packS : immSField (packS i12 rs2 rs1 f3 op) = i12 := by
  refine BitVec.eq_of_getLsbD_eq fun k hk => ?_
  show BitVec.getLsbD (w := 7 + 5) (_ ++ _) k = _
  simp only [packS_eq_packR, BitVec.getLsbD_append, BitVec.getLsbD_extractLsb', getLsbD_packR]
  grind

theorem getLsbD_immBField (k : Nat) : (immBField w).getLsbD k
    = if k = 0 then false else if k < 5 then w.getLsbD (k + 7) else if k < 11 then w.getLsbD (k + 20)
      else if k = 11 then w.getLsbD 7 else if k = 12 then w.getLsbD 31 else false := by
  show BitVec.getLsbD (w := 1 + 1 + 6 + 4 + 1) (_ ++ _ ++ _ ++ _ ++ _) k = _
  simp only [BitVec.getLsbD_append, BitVec.getLsbD_extractLsb', BitVec.getLsbD_zero]
  grind

theorem getLsbD_immJField (k : Nat) : (immJField w).getLsbD k
    = if k = 0 then false else if k < 11 then w.getLsbD (k + 20) else if k = 11 then w.getLsbD 20
      else if k < 20 then w.getLsbD k else if k = 20 then w.getLsbD 31 else false := by
  show BitVec.getLsbD (w := 1 + 8 + 1 + 10 + 1) (_ ++ _ ++ _ ++ _ ++ _) k = _
  simp only [BitVec.getLsbD_append, BitVec.getLsbD_extractLsb', BitVec.getLsbD_zero]
  grind

/-- The offset comes back only if its bit 0, which no bit of the word holds, is zero (R81). -/
theorem immBField_packB (h : i13.getLsbD 0 = false) : immBField (packB i13 rs2 rs1 f3 op) = i13 := by
  refine BitVec.eq_of_getLsbD_eq fun k hk => ?_
  rw [getLsbD_immBField, packB_eq_packR]
  simp only [getLsbD_packR, BitVec.getLsbD_append, BitVec.getLsbD_extractLsb']
  grind

@[simp] theorem immUField_packU : immUField (packU i20 rd op) = i20 := by
  refine BitVec.eq_of_getLsbD_eq fun k hk => ?_
  simp only [immUField, packU_eq_packR, BitVec.getLsbD_extractLsb', getLsbD_packR]
  grind

/-- The offset comes back only if its bit 0, which no bit of the word holds, is zero (R83). -/
theorem immJField_packJ (h : i21.getLsbD 0 = false) : immJField (packJ i21 rd op) = i21 := by
  refine BitVec.eq_of_getLsbD_eq fun k hk => ?_
  rw [getLsbD_immJField, packJ_eq_packR]
  simp only [getLsbD_packR, BitVec.getLsbD_append, BitVec.getLsbD_extractLsb']
  grind

/-! ### Packing the fields of a word -/

theorem packR_fields : packR (funct7Field w) (rs2Field w) (rs1Field w) (funct3Field w) (rdField w) (opcodeField w) = w := by
  refine BitVec.eq_of_getLsbD_eq fun k hk => ?_
  rw [getLsbD_packR]
  simp only [funct7Field, rs2Field, rs1Field, funct3Field, rdField, opcodeField, BitVec.getLsbD_extractLsb']
  grind

theorem packI_fields : packI (immIField w) (rs1Field w) (funct3Field w) (rdField w) (opcodeField w) = w := by
  refine Eq.trans ?_ (packR_fields w)
  rw [packI_eq_packR]
  congr 1 <;> (refine BitVec.eq_of_getLsbD_eq fun k hk => ?_) <;>
    simp only [immIField, funct7Field, rs2Field, BitVec.getLsbD_extractLsb'] <;> grind

theorem packS_fields : packS (immSField w) (rs2Field w) (rs1Field w) (funct3Field w) (opcodeField w) = w := by
  have h : ∀ k, (immSField w).getLsbD k = if k < 5 then w.getLsbD (k + 7) else if k < 12 then w.getLsbD (k + 20) else false := by
    intro k
    show BitVec.getLsbD (w := 7 + 5) (_ ++ _) k = _
    simp only [BitVec.getLsbD_append, BitVec.getLsbD_extractLsb']
    grind
  refine Eq.trans ?_ (packR_fields w)
  rw [packS_eq_packR]
  congr 1 <;> (refine BitVec.eq_of_getLsbD_eq fun k hk => ?_) <;>
    simp only [h, funct7Field, rdField, BitVec.getLsbD_extractLsb'] <;> grind

theorem packB_fields : packB (immBField w) (rs2Field w) (rs1Field w) (funct3Field w) (opcodeField w) = w := by
  refine Eq.trans ?_ (packR_fields w)
  rw [packB_eq_packR]
  congr 1 <;> (refine BitVec.eq_of_getLsbD_eq fun k hk => ?_) <;>
    simp only [getLsbD_immBField, funct7Field, rdField, BitVec.getLsbD_append, BitVec.getLsbD_extractLsb'] <;> grind

theorem packU_fields : packU (immUField w) (rdField w) (opcodeField w) = w := by
  refine Eq.trans ?_ (packR_fields w)
  rw [packU_eq_packR]
  congr 1 <;> (refine BitVec.eq_of_getLsbD_eq fun k hk => ?_) <;>
    simp only [immUField, funct7Field, rs2Field, rs1Field, funct3Field, BitVec.getLsbD_extractLsb'] <;> grind

theorem packJ_fields : packJ (immJField w) (rdField w) (opcodeField w) = w := by
  refine Eq.trans ?_ (packR_fields w)
  rw [packJ_eq_packR]
  congr 1 <;> (refine BitVec.eq_of_getLsbD_eq fun k hk => ?_) <;>
    simp only [getLsbD_immJField, funct7Field, rs2Field, rs1Field, funct3Field, BitVec.getLsbD_append,
      BitVec.getLsbD_extractLsb'] <;> grind

/-! ### The fixed bits of a packed word under the masks of R87 -/

theorem packR_and_packR (g7 : BitVec 7) (q2 q1 qd : RegIdx) (g3 : BitVec 3) (oq : BitVec 7) :
    packR f7 rs2 rs1 f3 rd op &&& packR g7 q2 q1 g3 qd oq
      = packR (f7 &&& g7) (rs2 &&& q2) (rs1 &&& q1) (f3 &&& g3) (rd &&& qd) (op &&& oq) := by
  refine BitVec.eq_of_getLsbD_eq fun k hk => ?_
  simp only [BitVec.getLsbD_and, getLsbD_packR]
  grind

/-- The mask of the rows with inst[31:25], funct3 and opcode fixed keeps those fields and clears the operands. -/
theorem packR_and_mask : packR f7 rs2 rs1 f3 rd op &&& 0xFE00707F#32 = packR f7 0 0 f3 0 op := by
  have h : 0xFE00707F#32 = packR (BitVec.allOnes 7) 0 0 (BitVec.allOnes 3) 0 (BitVec.allOnes 7) := by decide
  rw [h, packR_and_packR]
  simp only [BitVec.and_allOnes]
  simp

/-- The mask of the rows with funct3 and opcode fixed. -/
theorem packR_and_mask3 : packR f7 rs2 rs1 f3 rd op &&& 0x0000707F#32 = packR 0 0 0 f3 0 op := by
  have h : 0x0000707F#32 = packR 0 0 0 (BitVec.allOnes 3) 0 (BitVec.allOnes 7) := by decide
  rw [h, packR_and_packR]
  simp only [BitVec.and_allOnes]
  simp

/-- The mask of the rows with the opcode alone fixed. -/
theorem packR_and_mask0 : packR f7 rs2 rs1 f3 rd op &&& 0x0000007F#32 = packR 0 0 0 0 0 op := by
  have h : 0x0000007F#32 = packR 0 0 0 0 0 (BitVec.allOnes 7) := by decide
  rw [h, packR_and_packR]
  simp only [BitVec.and_allOnes]
  simp

end

end Sys2Proof
end

