-- ==== Sys2Proof/Laws/Memory.lean ====
section
/-! SUPPORT. The laws of Machine/Memory.lean: what reads see after a write (spec/20_memory.md R46, R52), and that every
operation keeps the canonical form. -/

namespace Sys2Proof.Machine

/-! ### Reading after writing -/

theorem Memory.read_erase (m : Memory) (a x : Nat) :
    (m.erase a).read x = if x = a then Config.unlistedByte else m.read x := by
  unfold Memory.erase
  induction m with
  | nil => simp [Memory.read]
  | cons c m ih =>
    obtain ⟨k, b⟩ := c
    by_cases hk : k = a
    · subst hk
      by_cases hx : x = k
      · simpa [Memory.read, hx] using ih
      · simpa [Memory.read, hx, Ne.symm hx] using ih
    · by_cases hx : k = x
      · subst hx; simp [Memory.read, hk]
      · simpa [Memory.read, hk, hx] using ih

theorem Memory.read_insert (m : Memory) (a x : Nat) (b : Byte) (h : ∀ c ∈ m, c.1 ≠ a) :
    (m.insert a b).read x = if x = a then b else m.read x := by
  induction m with
  | nil => simp [Memory.insert, Memory.read, eq_comm]
  | cons c m ih =>
    obtain ⟨k, v⟩ := c
    have hk : k ≠ a := h (k, v) (by simp)
    have ih := ih fun c hc => h c (by simp [hc])
    unfold Memory.insert
    split
    · simp [Memory.read, eq_comm]
    · by_cases hx : k = x
      · subst hx; simp [Memory.read, hk]
      · simp [Memory.read, hx, ih]

theorem Memory.erase_ne (m : Memory) (a : Nat) : ∀ c ∈ m.erase a, c.1 ≠ a := by
  intro c hc
  simpa using (List.mem_filter.mp hc).2

/-- A written byte is read back, and every other address keeps its byte (R46). -/
theorem Memory.read_write (m : Memory) (a x : Nat) (b : Byte) :
    (m.write a b).read x = if x = a then b else m.read x := by
  unfold Memory.write
  split
  · next h => rw [Memory.read_erase, h]
  · rw [Memory.read_insert _ _ _ _ (m.erase_ne a), Memory.read_erase]
    split <;> rfl

/-- What is read after bytes are written at consecutive addresses. -/
theorem Memory.read_writeBytes (m : Memory) (a x : Nat) (bs : List Byte) :
    (m.writeBytes a bs).read x = if h : a ≤ x ∧ x - a < bs.length then bs[x - a]'h.2 else m.read x := by
  induction bs generalizing m a with
  | nil => simp [Memory.writeBytes]
  | cons b bs ih =>
    rw [Memory.writeBytes, ih, Memory.read_write]
    by_cases hx : x = a
    · subst hx; simp
    · by_cases hle : a + 1 ≤ x
      · have e : x - a = (x - (a + 1)) + 1 := by omega
        have hle' : a ≤ x := by omega
        by_cases hlt : x - (a + 1) < bs.length
        · simp [hle, hle', e, hlt]
        · simp [hle, hle', e, hlt, hx]
      · have : ¬ (a ≤ x) := by omega
        simp [hle, this, hx]

@[simp] theorem bytesLE_length (sz : AccessSize) (v : BitVec sz.bits) : (bytesLE sz v).length = sz.bytes := by
  simp [bytesLE]

/-- What is read after a value is stored: byte i of the value at address a + i, every other address as before (R43, R46). -/
theorem Memory.read_writeSized (m : Memory) (a x : Nat) (sz : AccessSize) (v : BitVec sz.bits) :
    (m.writeSized a sz v).read x
      = if a ≤ x ∧ x < a + sz.bytes then v.extractLsb' (8 * (x - a)) 8 else m.read x := by
  rw [Memory.writeSized, Memory.read_writeBytes]
  by_cases h : a ≤ x ∧ x < a + sz.bytes
  · have h' : a ≤ x ∧ x - a < (bytesLE sz v).length := by rw [bytesLE_length]; omega
    rw [dif_pos h', if_pos h]
    simp [bytesLE]
  · have h' : ¬ (a ≤ x ∧ x - a < (bytesLE sz v).length) := by rw [bytesLE_length]; omega
    rw [dif_neg h', if_neg h]

/-! ### The canonical form -/

theorem Memory.wf_erase {m : Memory} (h : m.wf) (a : Nat) : (m.erase a).wf :=
  ⟨h.1.filter _, fun c hc => h.2 c (List.mem_filter.mp hc).1⟩

theorem Memory.mem_insert {m : Memory} {a : Nat} {b : Byte} {c : Host.Cell} :
    c ∈ m.insert a b ↔ c = (a, b) ∨ c ∈ m := by
  induction m with
  | nil => simp [Memory.insert]
  | cons d m ih =>
    obtain ⟨k, v⟩ := d
    unfold Memory.insert
    split
    · simp
    · simp only [List.mem_cons, ih]; tauto

theorem Memory.wf_insert {m : Memory} (h : m.wf) {a : Nat} {b : Byte} (ha : ∀ c ∈ m, c.1 ≠ a)
    (hb : b ≠ Config.unlistedByte) : (m.insert a b).wf := by
  refine ⟨?_, fun c hc => ?_⟩
  · have hs := h.1
    clear h
    induction m with
    | nil => simp [Memory.insert]
    | cons d m ih =>
      obtain ⟨k, v⟩ := d
      rw [List.pairwise_cons] at hs
      unfold Memory.insert
      split
      · next hlt =>
        refine List.pairwise_cons.mpr ⟨fun c hc => ?_, List.pairwise_cons.mpr hs⟩
        rcases List.mem_cons.mp hc with rfl | hc
        · exact hlt
        · exact Nat.lt_trans hlt (hs.1 c hc)
      · next hge =>
        have hk : k ≠ a := ha (k, v) (by simp)
        refine List.pairwise_cons.mpr ⟨fun c hc => ?_, ih (fun c hc => ha c (by simp [hc])) hs.2⟩
        rcases Memory.mem_insert.mp hc with rfl | hc
        · show k < a; omega
        · exact hs.1 c hc
  · rcases Memory.mem_insert.mp hc with rfl | hc
    · exact hb
    · exact h.2 c hc

/-- Writing a byte keeps the canonical form. -/
theorem Memory.wf_write {m : Memory} (h : m.wf) (a : Nat) (b : Byte) : (m.write a b).wf := by
  unfold Memory.write
  split
  · exact Memory.wf_erase h a
  · next hb => exact Memory.wf_insert (Memory.wf_erase h a) (m.erase_ne a) hb

/-- Writing bytes keeps the canonical form. -/
theorem Memory.wf_writeBytes {m : Memory} (h : m.wf) (a : Nat) (bs : List Byte) : (m.writeBytes a bs).wf := by
  induction bs generalizing m a with
  | nil => exact h
  | cons b bs ih => exact ih (Memory.wf_write h a b) (a + 1)

/-- Storing a value keeps the canonical form. -/
theorem Memory.wf_writeSized {m : Memory} (h : m.wf) (a : Nat) (sz : AccessSize) (v : BitVec sz.bits) :
    (m.writeSized a sz v).wf := Memory.wf_writeBytes h a _

theorem Memory.wf_foldl_write {m : Memory} (h : m.wf) (cells : List Host.Cell) :
    (cells.foldl (fun m c => m.write c.1 c.2) m).wf := by
  induction cells generalizing m with
  | nil => exact h
  | cons c cells ih => exact ih (Memory.wf_write h c.1 c.2)

/-- A memory made of cells is in the canonical form. -/
theorem Memory.wf_ofCells (cells : List Host.Cell) : (Memory.ofCells cells).wf :=
  Memory.wf_foldl_write ⟨List.Pairwise.nil, by simp⟩ cells

/-- Memories in the canonical form that read alike everywhere are the same list. -/
theorem Memory.ext_of_wf {m n : Memory} (hm : m.wf) (hn : n.wf) (h : ∀ a, m.read a = n.read a) : m = n := by
  have low : ∀ {k : Nat} {l : Memory}, (∀ c ∈ l, k < c.1) → ∀ a ≤ k, l.read a = Config.unlistedByte := by
    intro k l hl a ha
    induction l with
    | nil => rfl
    | cons c l ih =>
      obtain ⟨j, b⟩ := c
      have := hl (j, b) (by simp)
      have hne : j ≠ a := by simp only at this; omega
      simp only [Memory.read, hne, if_false]
      exact ih fun c hc => hl c (by simp [hc])
  induction m generalizing n with
  | nil =>
    cases n with
    | nil => rfl
    | cons d n =>
      have := h d.1
      simp only [Memory.read, if_true] at this
      exact absurd this.symm (hn.2 d (by simp))
  | cons c m ih =>
    obtain ⟨k, v⟩ := c
    have hm' := List.pairwise_cons.mp hm.1
    cases n with
    | nil =>
      have := h k
      simp only [Memory.read, if_true] at this
      exact absurd this (hm.2 (k, v) (by simp))
    | cons d n =>
      obtain ⟨j, u⟩ := d
      have hn' := List.pairwise_cons.mp hn.1
      have hkj : k = j := by
        rcases Nat.lt_trichotomy k j with hlt | he | hgt
        · have hk := h k
          have : Memory.read ((j, u) :: n) k = Config.unlistedByte :=
            low (k := k) (fun c hc => by
              rcases List.mem_cons.mp hc with rfl | hc
              · exact hlt
              · exact Nat.lt_trans hlt (hn'.1 c hc)) k (Nat.le_refl k)
          rw [this] at hk
          simp only [Memory.read, if_true] at hk
          exact absurd hk (hm.2 (k, v) (by simp))
        · exact he
        · have hj := h j
          have : Memory.read ((k, v) :: m) j = Config.unlistedByte :=
            low (k := j) (fun c hc => by
              rcases List.mem_cons.mp hc with rfl | hc
              · exact hgt
              · exact Nat.lt_trans hgt (hm'.1 c hc)) j (Nat.le_refl j)
          rw [this] at hj
          simp only [Memory.read, if_true] at hj
          exact absurd hj.symm (hn.2 (j, u) (by simp))
      subst hkj
      have hvu : v = u := by simpa [Memory.read] using h k
      subst hvu
      congr 1
      refine ih ⟨hm'.2, fun c hc => hm.2 c (by simp [hc])⟩ ⟨hn'.2, fun c hc => hn.2 c (by simp [hc])⟩ fun a => ?_
      by_cases ha : k = a
      · subst ha; rw [low hm'.1 k (Nat.le_refl k), low hn'.1 k (Nat.le_refl k)]
      · simpa [Memory.read, ha] using h a

/-- The cells after a write are old cells or at the written address. -/
theorem Memory.mem_write {m : Memory} {a : Nat} {b : Byte} {c : Host.Cell} (h : c ∈ m.write a b) : c ∈ m ∨ c.1 = a := by
  unfold Memory.write at h
  split at h
  · exact .inl (List.mem_filter.mp h).1
  · rcases Memory.mem_insert.mp h with rfl | h
    · exact .inr rfl
    · exact .inl (List.mem_filter.mp h).1

/-- The cells after bytes are written are old cells or at the written addresses. -/
theorem Memory.mem_writeBytes {m : Memory} {a : Nat} {bs : List Byte} {c : Host.Cell} (h : c ∈ m.writeBytes a bs) :
    c ∈ m ∨ (a ≤ c.1 ∧ c.1 < a + bs.length) := by
  induction bs generalizing m a with
  | nil => exact .inl h
  | cons b bs ih =>
    rcases ih h with h | h
    · rcases Memory.mem_write h with h | h
      · exact .inl h
      · exact .inr (by simp; omega)
    · exact .inr (by simp at h ⊢; omega)

/-- The cells after a value is stored are old cells or at the stored addresses. -/
theorem Memory.mem_writeSized {m : Memory} {a : Nat} {sz : AccessSize} {v : BitVec sz.bits} {c : Host.Cell}
    (h : c ∈ m.writeSized a sz v) : c ∈ m ∨ (a ≤ c.1 ∧ c.1 < a + sz.bytes) := by
  have := Memory.mem_writeBytes h
  rwa [bytesLE_length] at this

/-- The cells of a memory made of cells are at their addresses. -/
theorem Memory.mem_ofCells {cells : List Host.Cell} {c : Host.Cell} (h : c ∈ Memory.ofCells cells) :
    ∃ d ∈ cells, d.1 = c.1 := by
  have : ∀ (l : List Host.Cell) (m : Memory), c ∈ l.foldl (fun m c => m.write c.1 c.2) m →
      c ∈ m ∨ ∃ d ∈ l, d.1 = c.1 := by
    intro l
    induction l with
    | nil => exact fun m h => .inl h
    | cons d l ih =>
      intro m h
      rcases ih _ h with h | ⟨e, he, h⟩
      · rcases Memory.mem_write h with h | h
        · exact .inl h
        · exact .inr ⟨d, by simp, h.symm⟩
      · exact .inr ⟨e, by simp [he], h⟩
  rcases this cells [] h with h | h
  · simp at h
  · exact h

end Sys2Proof.Machine
end

