-- ==== Sys2Proof/Laws/State.lean ====
section
/-! SUPPORT. One lemma a field an update of the state, true by rfl, so that no later proof unfolds a record update;
and reading a register after each update. -/

namespace Sys2Proof.Machine

section
variable (s : State) (r q : RegIdx) (v t : Word) (m : Memory)

@[simp] theorem State.setReg_pc : (s.setReg r v).pc = s.pc := rfl
@[simp] theorem State.setReg_mem : (s.setReg r v).mem = s.mem := rfl
@[simp] theorem State.setReg_map : (s.setReg r v).map = s.map := rfl
@[simp] theorem State.setReg_endPc : (s.setReg r v).endPc = s.endPc := rfl
@[simp] theorem State.setPc_regs : (s.setPc t).regs = s.regs := rfl
@[simp] theorem State.setPc_pc : (s.setPc t).pc = t := rfl
@[simp] theorem State.setPc_mem : (s.setPc t).mem = s.mem := rfl
@[simp] theorem State.setPc_map : (s.setPc t).map = s.map := rfl
@[simp] theorem State.setPc_endPc : (s.setPc t).endPc = s.endPc := rfl
@[simp] theorem State.setMem_regs : (s.setMem m).regs = s.regs := rfl
@[simp] theorem State.setMem_pc : (s.setMem m).pc = s.pc := rfl
@[simp] theorem State.setMem_mem : (s.setMem m).mem = m := rfl
@[simp] theorem State.setMem_map : (s.setMem m).map = s.map := rfl
@[simp] theorem State.setMem_endPc : (s.setMem m).endPc = s.endPc := rfl

@[simp] theorem State.reg_setPc : (s.setPc t).reg q = s.reg q := rfl
@[simp] theorem State.reg_setMem : (s.setMem m).reg q = s.reg q := rfl
@[simp] theorem State.nextPc_setReg : (s.setReg r v).nextPc = s.nextPc := rfl
@[simp] theorem State.nextPc_setMem : (s.setMem m).nextPc = s.nextPc := rfl

@[simp] theorem State.inMem_setReg (a : Nat) : (s.setReg r v).inMem a = s.inMem a := rfl
@[simp] theorem State.inMem_setPc (a : Nat) : (s.setPc t).inMem a = s.inMem a := rfl
@[simp] theorem State.inMem_setMem (a : Nat) : (s.setMem m).inMem a = s.inMem a := rfl
@[simp] theorem State.inCode_setReg (a : Nat) : (s.setReg r v).inCode a = s.inCode a := rfl
@[simp] theorem State.inCode_setPc (a : Nat) : (s.setPc t).inCode a = s.inCode a := rfl
@[simp] theorem State.inCode_setMem (a : Nat) : (s.setMem m).inCode a = s.inCode a := rfl

end

/-- The place of a register other than x0 tells the register. -/
theorem regPlace_inj {r q : RegIdx} (hr : r ≠ 0#5) (hq : q ≠ 0#5) (h : r.toNat - 1 = q.toNat - 1) : r = q := by
  have hr' : r.toNat ≠ 0 := fun e => hr (BitVec.eq_of_toNat_eq (by simpa using e))
  have hq' : q.toNat ≠ 0 := fun e => hq (BitVec.eq_of_toNat_eq (by simpa using e))
  exact BitVec.eq_of_toNat_eq (by omega)

@[simp] theorem State.reg_zero (s : State) : s.reg 0#5 = 0#32 := rfl

/-- What a register reads after a write to a register (R21): the written one unless it is x0, and no other. -/
theorem State.reg_setReg (s : State) (r q : RegIdx) (v : Word) :
    (s.setReg r v).reg q = if q = r ∧ r ≠ 0#5 then v else s.reg q := by
  unfold State.reg State.setReg
  by_cases hq : q = 0#5
  · subst hq; by_cases hr : r = 0#5 <;> simp [hr, eq_comm]
  · by_cases hr : r = 0#5
    · simp [hq, hr]
    · by_cases e : q = r
      · subst e; simp [hq]
      · have : r.toNat - 1 ≠ q.toNat - 1 := fun h => e (regPlace_inj hr hq h).symm
        simp [hq, hr, e, this]

theorem State.setReg_zero (s : State) (v : Word) : s.setReg 0#5 v = s := rfl

end Sys2Proof.Machine
end

