-- ==== Sys2Proof/Laws/Ops.lean ====
section
/-! SUPPORT. For each shared operation of Machine/Ops.lean and Machine/Operands.lean, what it can answer, said once: later
proofs cite these and do not unfold the operations. -/

namespace Sys2Proof.Machine

/-! ### The memory map (spec/20_memory.md R42) -/

theorem State.readable_iff {s : State} {a n : Nat} : s.readable a n = true ↔ ∀ k, k < n → s.inMem (a + k) = true := by
  simp [State.readable]

theorem State.writable_iff {s : State} {a n : Nat} :
    s.writable a n = true ↔ ∀ k, k < n → s.inMem (a + k) = true ∧ s.inCode (a + k) = false := by
  simp [State.writable]

theorem State.executable_iff {s : State} {a n : Nat} :
    s.executable a n = true ↔ ∀ k, k < n → s.inCode (a + k) = true := by
  simp [State.executable]

@[simp] theorem State.readable_setReg (s : State) (r : RegIdx) (v : Word) (a n : Nat) :
    (s.setReg r v).readable a n = s.readable a n := rfl
@[simp] theorem State.writable_setReg (s : State) (r : RegIdx) (v : Word) (a n : Nat) :
    (s.setReg r v).writable a n = s.writable a n := rfl
@[simp] theorem State.readable_setPc (s : State) (t : Word) (a n : Nat) :
    (s.setPc t).readable a n = s.readable a n := rfl
@[simp] theorem State.writable_setPc (s : State) (t : Word) (a n : Nat) :
    (s.setPc t).writable a n = s.writable a n := rfl
@[simp] theorem State.readable_setMem (s : State) (m : Memory) (a n : Nat) :
    (s.setMem m).readable a n = s.readable a n := rfl
@[simp] theorem State.writable_setMem (s : State) (m : Memory) (a n : Nat) :
    (s.setMem m).writable a n = s.writable a n := rfl

/-- `MEM` and `CODE` are read off the map alone. -/
theorem State.inMem_congr {s t : State} (h : s.map = t.map) (a : Nat) : s.inMem a = t.inMem a := by
  unfold State.inMem; rw [h]

theorem State.inCode_congr {s t : State} (h : s.map = t.map) (a : Nat) : s.inCode a = t.inCode a := by
  unfold State.inCode; rw [h]

/-! ### Memory access -/

theorem memRead_of_misaligned {s : State} {addr : Word} {sz : AccessSize} (h : addr.toNat % sz.bytes ≠ 0) :
    memRead s addr sz = .error (.loadAddrMisaligned s.pc addr) := by
  unfold memRead; rw [if_pos h]

theorem memRead_of_absent {s : State} {addr : Word} {sz : AccessSize} (h : addr.toNat % sz.bytes = 0)
    (hr : s.readable addr.toNat sz.bytes = false) : memRead s addr sz = .error (.loadAccessFault s.pc addr) := by
  unfold memRead; rw [if_neg (by simp [h]), if_pos hr]

theorem memRead_of_readable {s : State} {addr : Word} {sz : AccessSize} (h : addr.toNat % sz.bytes = 0)
    (hr : s.readable addr.toNat sz.bytes = true) : memRead s addr sz = .ok (s.mem.readSized addr.toNat sz) := by
  unfold memRead; rw [if_neg (by simp [h]), if_neg (by simp [hr])]

/-- If a read answers a value, the access was aligned and allowed, and the value is what the bytes hold. -/
theorem memRead_ok {s : State} {addr : Word} {sz : AccessSize} {v : BitVec sz.bits} (h : memRead s addr sz = .ok v) :
    addr.toNat % sz.bytes = 0 ∧ s.readable addr.toNat sz.bytes = true ∧ v = s.mem.readSized addr.toNat sz := by
  unfold memRead at h
  split at h
  · cases h
  · split at h
    · cases h
    · cases h
      exact ⟨by simp_all, by simp_all, rfl⟩

/-- If a read faults, the fault is one of the two of a load. -/
theorem memRead_error {s : State} {addr : Word} {sz : AccessSize} {f : Fault} (h : memRead s addr sz = .error f) :
    (addr.toNat % sz.bytes ≠ 0 ∧ f = .loadAddrMisaligned s.pc addr) ∨ f = .loadAccessFault s.pc addr := by
  unfold memRead at h
  split at h
  · cases h; exact .inl ⟨‹_›, rfl⟩
  · split at h
    · cases h; exact .inr rfl
    · cases h

theorem memWrite_of_misaligned {s : State} {addr : Word} {sz : AccessSize} {v : BitVec sz.bits}
    (h : addr.toNat % sz.bytes ≠ 0) : memWrite s addr sz v = .error (.storeAddrMisaligned s.pc addr) := by
  unfold memWrite; rw [if_pos h]

theorem memWrite_of_absent {s : State} {addr : Word} {sz : AccessSize} {v : BitVec sz.bits}
    (h : addr.toNat % sz.bytes = 0) (hr : s.writable addr.toNat sz.bytes = false) :
    memWrite s addr sz v = .error (.storeAccessFault s.pc addr) := by
  unfold memWrite; rw [if_neg (by simp [h]), if_pos hr]

theorem memWrite_of_writable {s : State} {addr : Word} {sz : AccessSize} {v : BitVec sz.bits}
    (h : addr.toNat % sz.bytes = 0) (hr : s.writable addr.toNat sz.bytes = true) :
    memWrite s addr sz v = .ok (s.setMem (s.mem.writeSized addr.toNat sz v)) := by
  unfold memWrite; rw [if_neg (by simp [h]), if_neg (by simp [hr])]

/-- If a write answers a state, the access was aligned and allowed, and only the memory has changed. -/
theorem memWrite_ok {s t : State} {addr : Word} {sz : AccessSize} {v : BitVec sz.bits} (h : memWrite s addr sz v = .ok t) :
    addr.toNat % sz.bytes = 0 ∧ s.writable addr.toNat sz.bytes = true ∧ t = s.setMem (s.mem.writeSized addr.toNat sz v) := by
  unfold memWrite at h
  split at h
  · cases h
  · split at h
    · cases h
    · cases h
      exact ⟨by simp_all, by simp_all, rfl⟩

/-- If a write faults, the fault is one of the two of a store. -/
theorem memWrite_error {s : State} {addr : Word} {sz : AccessSize} {v : BitVec sz.bits} {f : Fault}
    (h : memWrite s addr sz v = .error f) :
    (addr.toNat % sz.bytes ≠ 0 ∧ f = .storeAddrMisaligned s.pc addr) ∨ f = .storeAccessFault s.pc addr := by
  unfold memWrite at h
  split at h
  · cases h; exact .inl ⟨‹_›, rfl⟩
  · split at h
    · cases h; exact .inr rfl
    · cases h

theorem fetch_of_executable {s : State} (h : s.executable s.pc.toNat 4 = true) :
    fetch s = .ok (s.mem.readSized s.pc.toNat .word) := by
  unfold fetch; rw [if_neg (by simp [h])]

theorem fetch_of_absent {s : State} (h : s.executable s.pc.toNat 4 = false) : fetch s = .error (.instrAccessFault s.pc) := by
  unfold fetch; rw [if_pos h]

/-! ### How an instruction ends -/

/-- `retire` always answers a next state. -/
theorem retire_eq (s : State) (rd : RegIdx) (v : Word) : retire s rd v = .next ((s.setReg rd v).setPc s.nextPc) := rfl

theorem jumpTo_of_aligned {s t : State} {target : Word} (h : target.extractLsb' 0 2 = 0b00#2) :
    jumpTo s t target = .next (t.setPc target) := by
  unfold jumpTo; rw [if_neg (by simp [h])]

theorem jumpTo_of_misaligned {s t : State} {target : Word} (h : target.extractLsb' 0 2 ≠ 0b00#2) :
    jumpTo s t target = .fault (.instrAddrMisaligned s.pc target) := by
  unfold jumpTo; rw [if_pos h]; rfl

/-- What `jumpTo` can answer. -/
theorem jumpTo_cases (s t : State) (target : Word) :
    (target.extractLsb' 0 2 = 0b00#2 ∧ jumpTo s t target = .next (t.setPc target)) ∨
    (target.extractLsb' 0 2 ≠ 0b00#2 ∧ jumpTo s t target = .fault (.instrAddrMisaligned s.pc target)) := by
  by_cases h : target.extractLsb' 0 2 = 0b00#2
  · exact .inl ⟨h, jumpTo_of_aligned h⟩
  · exact .inr ⟨h, jumpTo_of_misaligned h⟩

/-! ### The shapes of the families -/

/-- What a load can answer. -/
theorem execLoad_cases (sz : AccessSize) (ext : BitVec sz.bits → Word) (rd rs1 : RegIdx) (imm : BitVec 12) (s : State) :
    (∃ v, memRead s (effAddr s rs1 imm) sz = .ok v ∧
      execLoad sz ext rd rs1 imm s = .next ((s.setReg rd (ext v)).setPc s.nextPc)) ∨
    (∃ f, memRead s (effAddr s rs1 imm) sz = .error f ∧ execLoad sz ext rd rs1 imm s = .fault f) := by
  unfold execLoad
  cases h : memRead s (effAddr s rs1 imm) sz with
  | ok v => exact .inl ⟨v, rfl, rfl⟩
  | error f => exact .inr ⟨f, rfl, rfl⟩

/-- What a store can answer. -/
theorem execStore_cases (sz : AccessSize) (rs1 rs2 : RegIdx) (imm : BitVec 12) (s : State) :
    (∃ t, memWrite s (effAddr s rs1 imm) sz ((s.reg rs2).extractLsb' 0 sz.bits) = .ok t ∧
      execStore sz rs1 rs2 imm s = .next (t.setPc s.nextPc)) ∨
    (∃ f, memWrite s (effAddr s rs1 imm) sz ((s.reg rs2).extractLsb' 0 sz.bits) = .error f ∧
      execStore sz rs1 rs2 imm s = .fault f) := by
  unfold execStore
  cases h : memWrite s (effAddr s rs1 imm) sz ((s.reg rs2).extractLsb' 0 sz.bits) with
  | ok t => exact .inl ⟨t, rfl, rfl⟩
  | error f => exact .inr ⟨f, rfl, rfl⟩

/-- What a branch can answer. -/
theorem execBranch_cases (cond : Word → Word → Bool) (rs1 rs2 : RegIdx) (imm : BitVec 13) (s : State) :
    (cond (s.reg rs1) (s.reg rs2) = true ∧ execBranch cond rs1 rs2 imm s = jumpTo s s (branchTarget s imm)) ∨
    (cond (s.reg rs1) (s.reg rs2) = false ∧ execBranch cond rs1 rs2 imm s = .next (s.setPc s.nextPc)) := by
  unfold execBranch
  cases cond (s.reg rs1) (s.reg rs2) with
  | true => exact .inl ⟨rfl, rfl⟩
  | false => exact .inr ⟨rfl, rfl⟩

end Sys2Proof.Machine
end

