-- ==== Sys2Proof/Laws/PerInstr.lean ====
section
/-! SUPPORT. The family `EncodedWordSelectsRow`, one lemma a constructor of `Instr`: the word that `encode` gives an
instruction selects that instruction's own row of the opcode table (spec/30_encoding.md R87, R98). -/

namespace Sys2Proof.Laws

/-- The instruction's word has all the fixed bits of the row of its mnemonic. -/
def EncodedWordSelectsRow.Statement (i : Instr) : Prop :=
  ∃ r ∈ opcodeTable, r.mnemonic = i.mnemonic ∧ r.selects (encode i) = true

/-- The statement for a row and a word given their parts. -/
theorem selectsRow_intro {i : Instr} (r : OpcodeRow) (hr : r ∈ opcodeTable) (hm : r.mnemonic = i.mnemonic)
    (hw : encode i &&& r.mask = r.pattern) : EncodedWordSelectsRow.Statement i :=
  ⟨r, hr, hm, by simp [OpcodeRow.selects, hw]⟩

theorem EncodedWordSelectsRow.add (rd rs1 rs2 : RegIdx) : EncodedWordSelectsRow.Statement (.add rd rs1 rs2) :=
  selectsRow_intro ⟨.ADD, .R, 0x00000033#32, 0xFE00707F#32⟩ (by decide) rfl
    (by simp only [encode, packR_and_mask]; decide)

theorem EncodedWordSelectsRow.sub (rd rs1 rs2 : RegIdx) : EncodedWordSelectsRow.Statement (.sub rd rs1 rs2) :=
  selectsRow_intro ⟨.SUB, .R, 0x40000033#32, 0xFE00707F#32⟩ (by decide) rfl
    (by simp only [encode, packR_and_mask]; decide)

theorem EncodedWordSelectsRow.sll (rd rs1 rs2 : RegIdx) : EncodedWordSelectsRow.Statement (.sll rd rs1 rs2) :=
  selectsRow_intro ⟨.SLL, .R, 0x00001033#32, 0xFE00707F#32⟩ (by decide) rfl
    (by simp only [encode, packR_and_mask]; decide)

theorem EncodedWordSelectsRow.slt (rd rs1 rs2 : RegIdx) : EncodedWordSelectsRow.Statement (.slt rd rs1 rs2) :=
  selectsRow_intro ⟨.SLT, .R, 0x00002033#32, 0xFE00707F#32⟩ (by decide) rfl
    (by simp only [encode, packR_and_mask]; decide)

theorem EncodedWordSelectsRow.sltu (rd rs1 rs2 : RegIdx) : EncodedWordSelectsRow.Statement (.sltu rd rs1 rs2) :=
  selectsRow_intro ⟨.SLTU, .R, 0x00003033#32, 0xFE00707F#32⟩ (by decide) rfl
    (by simp only [encode, packR_and_mask]; decide)

theorem EncodedWordSelectsRow.xor (rd rs1 rs2 : RegIdx) : EncodedWordSelectsRow.Statement (.xor rd rs1 rs2) :=
  selectsRow_intro ⟨.XOR, .R, 0x00004033#32, 0xFE00707F#32⟩ (by decide) rfl
    (by simp only [encode, packR_and_mask]; decide)

theorem EncodedWordSelectsRow.srl (rd rs1 rs2 : RegIdx) : EncodedWordSelectsRow.Statement (.srl rd rs1 rs2) :=
  selectsRow_intro ⟨.SRL, .R, 0x00005033#32, 0xFE00707F#32⟩ (by decide) rfl
    (by simp only [encode, packR_and_mask]; decide)

theorem EncodedWordSelectsRow.sra (rd rs1 rs2 : RegIdx) : EncodedWordSelectsRow.Statement (.sra rd rs1 rs2) :=
  selectsRow_intro ⟨.SRA, .R, 0x40005033#32, 0xFE00707F#32⟩ (by decide) rfl
    (by simp only [encode, packR_and_mask]; decide)

theorem EncodedWordSelectsRow.or (rd rs1 rs2 : RegIdx) : EncodedWordSelectsRow.Statement (.or rd rs1 rs2) :=
  selectsRow_intro ⟨.OR, .R, 0x00006033#32, 0xFE00707F#32⟩ (by decide) rfl
    (by simp only [encode, packR_and_mask]; decide)

theorem EncodedWordSelectsRow.and (rd rs1 rs2 : RegIdx) : EncodedWordSelectsRow.Statement (.and rd rs1 rs2) :=
  selectsRow_intro ⟨.AND, .R, 0x00007033#32, 0xFE00707F#32⟩ (by decide) rfl
    (by simp only [encode, packR_and_mask]; decide)

theorem EncodedWordSelectsRow.addi (rd rs1 : RegIdx) (imm : BitVec 12) : EncodedWordSelectsRow.Statement (.addi rd rs1 imm) :=
  selectsRow_intro ⟨.ADDI, .I, 0x00000013#32, 0x0000707F#32⟩ (by decide) rfl
    (by simp only [encode, packI_eq_packR, packR_and_mask3]; decide)

theorem EncodedWordSelectsRow.slti (rd rs1 : RegIdx) (imm : BitVec 12) : EncodedWordSelectsRow.Statement (.slti rd rs1 imm) :=
  selectsRow_intro ⟨.SLTI, .I, 0x00002013#32, 0x0000707F#32⟩ (by decide) rfl
    (by simp only [encode, packI_eq_packR, packR_and_mask3]; decide)

theorem EncodedWordSelectsRow.sltiu (rd rs1 : RegIdx) (imm : BitVec 12) : EncodedWordSelectsRow.Statement (.sltiu rd rs1 imm) :=
  selectsRow_intro ⟨.SLTIU, .I, 0x00003013#32, 0x0000707F#32⟩ (by decide) rfl
    (by simp only [encode, packI_eq_packR, packR_and_mask3]; decide)

theorem EncodedWordSelectsRow.xori (rd rs1 : RegIdx) (imm : BitVec 12) : EncodedWordSelectsRow.Statement (.xori rd rs1 imm) :=
  selectsRow_intro ⟨.XORI, .I, 0x00004013#32, 0x0000707F#32⟩ (by decide) rfl
    (by simp only [encode, packI_eq_packR, packR_and_mask3]; decide)

theorem EncodedWordSelectsRow.ori (rd rs1 : RegIdx) (imm : BitVec 12) : EncodedWordSelectsRow.Statement (.ori rd rs1 imm) :=
  selectsRow_intro ⟨.ORI, .I, 0x00006013#32, 0x0000707F#32⟩ (by decide) rfl
    (by simp only [encode, packI_eq_packR, packR_and_mask3]; decide)

theorem EncodedWordSelectsRow.andi (rd rs1 : RegIdx) (imm : BitVec 12) : EncodedWordSelectsRow.Statement (.andi rd rs1 imm) :=
  selectsRow_intro ⟨.ANDI, .I, 0x00007013#32, 0x0000707F#32⟩ (by decide) rfl
    (by simp only [encode, packI_eq_packR, packR_and_mask3]; decide)

theorem EncodedWordSelectsRow.slli (rd rs1 : RegIdx) (shamt : BitVec 5) : EncodedWordSelectsRow.Statement (.slli rd rs1 shamt) :=
  selectsRow_intro ⟨.SLLI, .IShift, 0x00001013#32, 0xFE00707F#32⟩ (by decide) rfl
    (by simp only [encode, packR_and_mask]; decide)

theorem EncodedWordSelectsRow.srli (rd rs1 : RegIdx) (shamt : BitVec 5) : EncodedWordSelectsRow.Statement (.srli rd rs1 shamt) :=
  selectsRow_intro ⟨.SRLI, .IShift, 0x00005013#32, 0xFE00707F#32⟩ (by decide) rfl
    (by simp only [encode, packR_and_mask]; decide)

theorem EncodedWordSelectsRow.srai (rd rs1 : RegIdx) (shamt : BitVec 5) : EncodedWordSelectsRow.Statement (.srai rd rs1 shamt) :=
  selectsRow_intro ⟨.SRAI, .IShift, 0x40005013#32, 0xFE00707F#32⟩ (by decide) rfl
    (by simp only [encode, packR_and_mask]; decide)

theorem EncodedWordSelectsRow.lb (rd rs1 : RegIdx) (imm : BitVec 12) : EncodedWordSelectsRow.Statement (.lb rd rs1 imm) :=
  selectsRow_intro ⟨.LB, .I, 0x00000003#32, 0x0000707F#32⟩ (by decide) rfl
    (by simp only [encode, packI_eq_packR, packR_and_mask3]; decide)

theorem EncodedWordSelectsRow.lh (rd rs1 : RegIdx) (imm : BitVec 12) : EncodedWordSelectsRow.Statement (.lh rd rs1 imm) :=
  selectsRow_intro ⟨.LH, .I, 0x00001003#32, 0x0000707F#32⟩ (by decide) rfl
    (by simp only [encode, packI_eq_packR, packR_and_mask3]; decide)

theorem EncodedWordSelectsRow.lw (rd rs1 : RegIdx) (imm : BitVec 12) : EncodedWordSelectsRow.Statement (.lw rd rs1 imm) :=
  selectsRow_intro ⟨.LW, .I, 0x00002003#32, 0x0000707F#32⟩ (by decide) rfl
    (by simp only [encode, packI_eq_packR, packR_and_mask3]; decide)

theorem EncodedWordSelectsRow.lbu (rd rs1 : RegIdx) (imm : BitVec 12) : EncodedWordSelectsRow.Statement (.lbu rd rs1 imm) :=
  selectsRow_intro ⟨.LBU, .I, 0x00004003#32, 0x0000707F#32⟩ (by decide) rfl
    (by simp only [encode, packI_eq_packR, packR_and_mask3]; decide)

theorem EncodedWordSelectsRow.lhu (rd rs1 : RegIdx) (imm : BitVec 12) : EncodedWordSelectsRow.Statement (.lhu rd rs1 imm) :=
  selectsRow_intro ⟨.LHU, .I, 0x00005003#32, 0x0000707F#32⟩ (by decide) rfl
    (by simp only [encode, packI_eq_packR, packR_and_mask3]; decide)

theorem EncodedWordSelectsRow.sb (rs1 rs2 : RegIdx) (imm : BitVec 12) : EncodedWordSelectsRow.Statement (.sb rs1 rs2 imm) :=
  selectsRow_intro ⟨.SB, .S, 0x00000023#32, 0x0000707F#32⟩ (by decide) rfl
    (by simp only [encode, packS_eq_packR, packR_and_mask3]; decide)

theorem EncodedWordSelectsRow.sh (rs1 rs2 : RegIdx) (imm : BitVec 12) : EncodedWordSelectsRow.Statement (.sh rs1 rs2 imm) :=
  selectsRow_intro ⟨.SH, .S, 0x00001023#32, 0x0000707F#32⟩ (by decide) rfl
    (by simp only [encode, packS_eq_packR, packR_and_mask3]; decide)

theorem EncodedWordSelectsRow.sw (rs1 rs2 : RegIdx) (imm : BitVec 12) : EncodedWordSelectsRow.Statement (.sw rs1 rs2 imm) :=
  selectsRow_intro ⟨.SW, .S, 0x00002023#32, 0x0000707F#32⟩ (by decide) rfl
    (by simp only [encode, packS_eq_packR, packR_and_mask3]; decide)

theorem EncodedWordSelectsRow.beq (rs1 rs2 : RegIdx) (imm : BitVec 13) : EncodedWordSelectsRow.Statement (.beq rs1 rs2 imm) :=
  selectsRow_intro ⟨.BEQ, .B, 0x00000063#32, 0x0000707F#32⟩ (by decide) rfl
    (by simp only [encode, packB_eq_packR, packR_and_mask3]; decide)

theorem EncodedWordSelectsRow.bne (rs1 rs2 : RegIdx) (imm : BitVec 13) : EncodedWordSelectsRow.Statement (.bne rs1 rs2 imm) :=
  selectsRow_intro ⟨.BNE, .B, 0x00001063#32, 0x0000707F#32⟩ (by decide) rfl
    (by simp only [encode, packB_eq_packR, packR_and_mask3]; decide)

theorem EncodedWordSelectsRow.blt (rs1 rs2 : RegIdx) (imm : BitVec 13) : EncodedWordSelectsRow.Statement (.blt rs1 rs2 imm) :=
  selectsRow_intro ⟨.BLT, .B, 0x00004063#32, 0x0000707F#32⟩ (by decide) rfl
    (by simp only [encode, packB_eq_packR, packR_and_mask3]; decide)

theorem EncodedWordSelectsRow.bge (rs1 rs2 : RegIdx) (imm : BitVec 13) : EncodedWordSelectsRow.Statement (.bge rs1 rs2 imm) :=
  selectsRow_intro ⟨.BGE, .B, 0x00005063#32, 0x0000707F#32⟩ (by decide) rfl
    (by simp only [encode, packB_eq_packR, packR_and_mask3]; decide)

theorem EncodedWordSelectsRow.bltu (rs1 rs2 : RegIdx) (imm : BitVec 13) : EncodedWordSelectsRow.Statement (.bltu rs1 rs2 imm) :=
  selectsRow_intro ⟨.BLTU, .B, 0x00006063#32, 0x0000707F#32⟩ (by decide) rfl
    (by simp only [encode, packB_eq_packR, packR_and_mask3]; decide)

theorem EncodedWordSelectsRow.bgeu (rs1 rs2 : RegIdx) (imm : BitVec 13) : EncodedWordSelectsRow.Statement (.bgeu rs1 rs2 imm) :=
  selectsRow_intro ⟨.BGEU, .B, 0x00007063#32, 0x0000707F#32⟩ (by decide) rfl
    (by simp only [encode, packB_eq_packR, packR_and_mask3]; decide)

theorem EncodedWordSelectsRow.lui (rd : RegIdx) (imm : BitVec 20) : EncodedWordSelectsRow.Statement (.lui rd imm) :=
  selectsRow_intro ⟨.LUI, .U, 0x00000037#32, 0x0000007F#32⟩ (by decide) rfl
    (by simp only [encode, packU_eq_packR, packR_and_mask0]; decide)

theorem EncodedWordSelectsRow.auipc (rd : RegIdx) (imm : BitVec 20) : EncodedWordSelectsRow.Statement (.auipc rd imm) :=
  selectsRow_intro ⟨.AUIPC, .U, 0x00000017#32, 0x0000007F#32⟩ (by decide) rfl
    (by simp only [encode, packU_eq_packR, packR_and_mask0]; decide)

theorem EncodedWordSelectsRow.jal (rd : RegIdx) (imm : BitVec 21) : EncodedWordSelectsRow.Statement (.jal rd imm) :=
  selectsRow_intro ⟨.JAL, .J, 0x0000006F#32, 0x0000007F#32⟩ (by decide) rfl
    (by simp only [encode, packJ_eq_packR, packR_and_mask0]; decide)

theorem EncodedWordSelectsRow.jalr (rd rs1 : RegIdx) (imm : BitVec 12) : EncodedWordSelectsRow.Statement (.jalr rd rs1 imm) :=
  selectsRow_intro ⟨.JALR, .I, 0x00000067#32, 0x0000707F#32⟩ (by decide) rfl
    (by simp only [encode, packI_eq_packR, packR_and_mask3]; decide)

end Sys2Proof.Laws
end

