-- ==== Sys2Proof/Tests/Slice0.lean ====
section
/-! SUPPORT. Tests. Every expected value is the spec's: the vectors of spec/95_test_vectors.md (V-DEC, V-ILL, V-RR, V-RI,
V-LD, V-ST, V-BR, V-UI, V-JP, V-STEP), named at each group; and for every statement of Obligations.lean that has
hypotheses, a state and operands that meet them. -/

namespace Sys2Proof.Tests
open Sys2Proof.Machine Sys2Proof.Claims

/-! ### Helpers -/

/-- The memory map and the memory of V-LD: bytes 80 FF 7F 00 EF BE AD DE at 0x1000, with a pc and two registers. -/
def lab (pc x5 x6 x7 : Word) : State :=
  (((State.launch ⟨Config.exampleMap, pc, 0x2000#32, Config.exampleRegs,
    [(0x1000, 0x80#8), (0x1001, 0xFF#8), (0x1002, 0x7F#8), (0x1004, 0xEF#8), (0x1005, 0xBE#8), (0x1006, 0xAD#8),
     (0x1007, 0xDE#8)]⟩).setReg 5 x5).setReg 6 x6).setReg 7 x7

/-- The outcome is a next state in which the register and the pc hold these values. -/
def ends (o : Outcome) (r : RegIdx) (v pc : Word) : Bool :=
  match o with
  | .next t => t.reg r == v && t.pc == pc
  | .fault _ => false
  | .refused _ => false

/-- The outcome is a next state with these two adjacent words in memory. -/
def stores (o : Outcome) (a : Nat) (low high : Word) : Bool :=
  match o with
  | .next t => t.mem.readSized a .word == low && t.mem.readSized (a + 4) .word == high
  | .fault _ => false
  | .refused _ => false

/-- The outcome is the fault. -/
def faults (o : Outcome) (f : Fault) : Bool :=
  match o with
  | .next _ => false
  | .fault g => g == f
  | .refused _ => false

/-- The outcome is a next state. -/
def completes (o : Outcome) : Bool :=
  match o with
  | .next _ => true
  | .fault _ => false
  | .refused _ => false

theorem completes_iff (o : Outcome) : completes o = true ↔ ∃ t, o = .next t := by
  cases o <;> simp [completes]

theorem faults_iff (o : Outcome) (f : Fault) : faults o f = true ↔ o = .fault f := by
  cases o <;> simp [faults]

/-! ### Well-formedness: a term that each check refuses, and one it takes -/

theorem test_branch_odd_offset_ill_formed : (Instr.beq 0 0 (1 : BitVec 13)).wellFormed = false := by decide
theorem test_branch_even_offset_well_formed : (Instr.beq 0 0 (2 : BitVec 13)).wellFormed = true := by decide
theorem test_jump_odd_offset_ill_formed : (Instr.jal 0 (1 : BitVec 21)).wellFormed = false := by decide
theorem test_jump_even_offset_well_formed : (Instr.jal 0 (2 : BitVec 21)).wellFormed = true := by decide

/-! ### Decoding: one word an instruction, its bits written out field by field (V-DEC) -/

theorem test_decode_add : decode 0b00000000110001011000011010110011#32 = .ok (.add 13 11 12) := by decide
theorem test_decode_sub : decode 0b01000000011100110000001010110011#32 = .ok (.sub 5 6 7) := by decide
theorem test_decode_sll : decode 0b00000000011100110001001010110011#32 = .ok (.sll 5 6 7) := by decide
theorem test_decode_slt : decode 0b00000000011100110010001010110011#32 = .ok (.slt 5 6 7) := by decide
theorem test_decode_sltu : decode 0b00000000011100110011001010110011#32 = .ok (.sltu 5 6 7) := by decide
theorem test_decode_xor : decode 0b00000000011100110100001010110011#32 = .ok (.xor 5 6 7) := by decide
theorem test_decode_srl : decode 0b00000000011100110101001010110011#32 = .ok (.srl 5 6 7) := by decide
theorem test_decode_sra : decode 0b01000000011100110101001010110011#32 = .ok (.sra 5 6 7) := by decide
theorem test_decode_or : decode 0b00000000011100110110001010110011#32 = .ok (.or 5 6 7) := by decide
theorem test_decode_and : decode 0b00000000011100110111001010110011#32 = .ok (.and 5 6 7) := by decide
theorem test_decode_addi : decode 0b11111111111100110000001010010011#32 = .ok (.addi 5 6 (-1)) := by decide
theorem test_decode_slti : decode 0b11111111111100110010001010010011#32 = .ok (.slti 5 6 (-1)) := by decide
theorem test_decode_sltiu : decode 0b00000000000100110011001010010011#32 = .ok (.sltiu 5 6 1) := by decide
theorem test_decode_xori : decode 0b11111111111100110100001010010011#32 = .ok (.xori 5 6 (-1)) := by decide
theorem test_decode_ori : decode 0b00001111000000110110001010010011#32 = .ok (.ori 5 6 240) := by decide
theorem test_decode_andi : decode 0b00001111111100110111001010010011#32 = .ok (.andi 5 6 255) := by decide
theorem test_decode_slli : decode 0b00000000010000110001001010010011#32 = .ok (.slli 5 6 4) := by decide
theorem test_decode_srli : decode 0b00000000010000110101001010010011#32 = .ok (.srli 5 6 4) := by decide
theorem test_decode_srai : decode 0b01000000010000110101001010010011#32 = .ok (.srai 5 6 4) := by decide
theorem test_decode_lb : decode 0b11111111111100110000001010000011#32 = .ok (.lb 5 6 (-1)) := by decide
theorem test_decode_lh : decode 0b00000000001000110001001010000011#32 = .ok (.lh 5 6 2) := by decide
theorem test_decode_lw : decode 0b00000000100000010010011100000011#32 = .ok (.lw 14 2 8) := by decide
theorem test_decode_lbu : decode 0b00000000001100110100001010000011#32 = .ok (.lbu 5 6 3) := by decide
theorem test_decode_lhu : decode 0b00000000001000110101001010000011#32 = .ok (.lhu 5 6 2) := by decide
theorem test_decode_sb : decode 0b00000000011100110000000110100011#32 = .ok (.sb 6 7 3) := by decide
theorem test_decode_sh : decode 0b11111110011100110001111100100011#32 = .ok (.sh 6 7 (-2)) := by decide
theorem test_decode_sw : decode 0b11111110011100110010111000100011#32 = .ok (.sw 6 7 (-4)) := by decide
theorem test_decode_beq : decode 0b00000000101010011000100001100011#32 = .ok (.beq 19 10 16) := by decide
theorem test_decode_bne : decode 0b11111110011000101001110011100011#32 = .ok (.bne 5 6 (-8)) := by decide
theorem test_decode_blt : decode 0b00000000011000101100010001100011#32 = .ok (.blt 5 6 8) := by decide
theorem test_decode_bge : decode 0b00000000011000101101010001100011#32 = .ok (.bge 5 6 8) := by decide
theorem test_decode_bltu : decode 0b00000000011000101110010001100011#32 = .ok (.bltu 5 6 8) := by decide
theorem test_decode_bgeu : decode 0b00000000011000101111010001100011#32 = .ok (.bgeu 5 6 8) := by decide
theorem test_decode_lui : decode 0b11011110101011011100001010110111#32 = .ok (.lui 5 0xDEADC) := by decide
theorem test_decode_auipc : decode 0b00000000000000000001001010010111#32 = .ok (.auipc 5 0x00001) := by decide
theorem test_decode_jal : decode 0b00000001000000000000000011101111#32 = .ok (.jal 1 16) := by decide
theorem test_decode_jalr : decode 0b00000000000000001000000001100111#32 = .ok (.jalr 0 1 0) := by decide

/-! ### Words that select no instruction (V-ILL) -/

theorem test_reject_zero : decode 0x00000000#32 = .error .definedIllegal := by decide
theorem test_reject_ones : decode 0xFFFFFFFF#32 = .error .definedIllegal := by decide
theorem test_reject_ecall : decode 0x00000073#32 = .error .ecall := by decide
theorem test_reject_fence : decode 0x0FF0000F#32 = .error .fence := by decide
theorem test_reject_rdcycle : decode 0xC0002573#32 = .error .csrrs := by decide
theorem test_reject_mul : decode 0x027302B3#32 = .error .mul := by decide
theorem test_reject_slli_funct7 : decode 0x40431293#32 = .error .reserved := by decide
theorem test_reject_ld : decode 0x00033283#32 = .error .ld := by decide
theorem test_reject_branch_funct3 : decode 0x00002063#32 = .error .reserved := by decide
theorem test_reject_jalr_funct3 : decode 0x00009067#32 = .error .reserved := by decide
theorem test_reject_compressed : decode 0x00004501#32 = .error .compressed := by decide
theorem test_reject_short_bytes : decodeBytes [0x13#8, 0x00#8, 0x00#8] = .error .truncated := by decide

/-! ### The word as the opcode table numbers it, run as the first instruction after reset -/

theorem test_table_word : decodeTableWord 32 0x00812703 = some (.lw 14 2 8) := by decide
theorem test_first_instruction : ends (step (State.reset.withFetchWord 32 0x00500093)) 1 5 4 = true := by decide
theorem test_reset_first_step : faults (step State.reset) (.illegalInstruction 0 0) = true := by decide

/-! ### Register-register instructions: two rows of V-RR -/

theorem test_add_a : ends (exec (.add 5 6 7) (lab 0x100 0 0x80000001 0x0000001F)) 5 0x80000020 0x104 = true := by decide
theorem test_add_b : ends (exec (.add 5 6 7) (lab 0x100 0 0x00000005 0xFFFFFFFE)) 5 0x00000003 0x104 = true := by decide
theorem test_sub_a : ends (exec (.sub 5 6 7) (lab 0x100 0 0x80000001 0x0000001F)) 5 0x7FFFFFE2 0x104 = true := by decide
theorem test_sub_b : ends (exec (.sub 5 6 7) (lab 0x100 0 0x00000005 0xFFFFFFFE)) 5 0x00000007 0x104 = true := by decide
theorem test_sll_a : ends (exec (.sll 5 6 7) (lab 0x100 0 0x80000001 0x0000001F)) 5 0x80000000 0x104 = true := by decide
theorem test_sll_b : ends (exec (.sll 5 6 7) (lab 0x100 0 0x00000005 0xFFFFFFFE)) 5 0x40000000 0x104 = true := by decide
theorem test_slt_a : ends (exec (.slt 5 6 7) (lab 0x100 0 0x80000001 0x0000001F)) 5 0x00000001 0x104 = true := by decide
theorem test_slt_b : ends (exec (.slt 5 6 7) (lab 0x100 0 0x00000005 0xFFFFFFFE)) 5 0x00000000 0x104 = true := by decide
theorem test_sltu_a : ends (exec (.sltu 5 6 7) (lab 0x100 0 0x80000001 0x0000001F)) 5 0x00000000 0x104 = true := by decide
theorem test_sltu_b : ends (exec (.sltu 5 6 7) (lab 0x100 0 0x00000005 0xFFFFFFFE)) 5 0x00000001 0x104 = true := by decide
theorem test_xor_a : ends (exec (.xor 5 6 7) (lab 0x100 0 0x80000001 0x0000001F)) 5 0x8000001E 0x104 = true := by decide
theorem test_xor_b : ends (exec (.xor 5 6 7) (lab 0x100 0 0x00000005 0xFFFFFFFE)) 5 0xFFFFFFFB 0x104 = true := by decide
theorem test_srl_a : ends (exec (.srl 5 6 7) (lab 0x100 0 0x80000001 0x0000001F)) 5 0x00000001 0x104 = true := by decide
theorem test_srl_b : ends (exec (.srl 5 6 7) (lab 0x100 0 0x00000005 0xFFFFFFFE)) 5 0x00000000 0x104 = true := by decide
theorem test_sra_a : ends (exec (.sra 5 6 7) (lab 0x100 0 0x80000001 0x0000001F)) 5 0xFFFFFFFF 0x104 = true := by decide
theorem test_sra_b : ends (exec (.sra 5 6 7) (lab 0x100 0 0x00000005 0xFFFFFFFE)) 5 0x00000000 0x104 = true := by decide
theorem test_or_a : ends (exec (.or 5 6 7) (lab 0x100 0 0x80000001 0x0000001F)) 5 0x8000001F 0x104 = true := by decide
theorem test_or_b : ends (exec (.or 5 6 7) (lab 0x100 0 0x00000005 0xFFFFFFFE)) 5 0xFFFFFFFF 0x104 = true := by decide
theorem test_and_a : ends (exec (.and 5 6 7) (lab 0x100 0 0x80000001 0x0000001F)) 5 0x00000001 0x104 = true := by decide
theorem test_and_b : ends (exec (.and 5 6 7) (lab 0x100 0 0x00000005 0xFFFFFFFE)) 5 0x00000004 0x104 = true := by decide

/-! ### Register-immediate instructions (V-RI) -/

theorem test_addi_a : ends (exec (.addi 5 6 (-1)) (lab 0x100 0 0x00000000 0)) 5 0xFFFFFFFF 0x104 = true := by decide
theorem test_addi_b : ends (exec (.addi 5 6 (-1)) (lab 0x100 0 0x80000000 0)) 5 0x7FFFFFFF 0x104 = true := by decide
theorem test_slti_a : ends (exec (.slti 5 6 (-1)) (lab 0x100 0 0xFFFFFFFE 0)) 5 0x00000001 0x104 = true := by decide
theorem test_slti_b : ends (exec (.slti 5 6 (-1)) (lab 0x100 0 0x00000000 0)) 5 0x00000000 0x104 = true := by decide
theorem test_sltiu_a : ends (exec (.sltiu 5 6 (-1)) (lab 0x100 0 0xFFFFFFFE 0)) 5 0x00000001 0x104 = true := by decide
theorem test_sltiu_b : ends (exec (.sltiu 5 6 (-2048)) (lab 0x100 0 0xFFFFF7FF 0)) 5 0x00000001 0x104 = true := by decide
theorem test_xori_a : ends (exec (.xori 5 6 (-1)) (lab 0x100 0 0x12345678 0)) 5 0xEDCBA987 0x104 = true := by decide
theorem test_xori_b : ends (exec (.xori 5 6 1365) (lab 0x100 0 0x00000FFF 0)) 5 0x00000AAA 0x104 = true := by decide
theorem test_ori_a : ends (exec (.ori 5 6 (-256)) (lab 0x100 0 0x12345678 0)) 5 0xFFFFFF78 0x104 = true := by decide
theorem test_ori_b : ends (exec (.ori 5 6 240) (lab 0x100 0 0x12345608 0)) 5 0x123456F8 0x104 = true := by decide
theorem test_andi_a : ends (exec (.andi 5 6 (-16)) (lab 0x100 0 0x12345678 0)) 5 0x12345670 0x104 = true := by decide
theorem test_andi_b : ends (exec (.andi 5 6 (-2048)) (lab 0x100 0 0xFFFFFFFF 0)) 5 0xFFFFF800 0x104 = true := by decide
theorem test_slli_a : ends (exec (.slli 5 6 4) (lab 0x100 0 0x12345678 0)) 5 0x23456780 0x104 = true := by decide
theorem test_slli_b : ends (exec (.slli 5 6 31) (lab 0x100 0 0x00000001 0)) 5 0x80000000 0x104 = true := by decide
theorem test_srli_a : ends (exec (.srli 5 6 4) (lab 0x100 0 0x87654321 0)) 5 0x08765432 0x104 = true := by decide
theorem test_srli_b : ends (exec (.srli 5 6 31) (lab 0x100 0 0x80000000 0)) 5 0x00000001 0x104 = true := by decide
theorem test_srai_a : ends (exec (.srai 5 6 4) (lab 0x100 0 0x87654321 0)) 5 0xF8765432 0x104 = true := by decide
theorem test_srai_b : ends (exec (.srai 5 6 31) (lab 0x100 0 0x80000000 0)) 5 0xFFFFFFFF 0x104 = true := by decide

/-! ### Loads (V-LD) -/

theorem test_lb_a : ends (exec (.lb 5 6 (-4)) (lab 0x100 0 0x1004 0)) 5 0xFFFFFF80 0x104 = true := by decide
theorem test_lb_b : ends (exec (.lb 5 6 3) (lab 0x100 0 0x1004 0)) 5 0xFFFFFFDE 0x104 = true := by decide
theorem test_lbu_a : ends (exec (.lbu 5 6 (-4)) (lab 0x100 0 0x1004 0)) 5 0x00000080 0x104 = true := by decide
theorem test_lbu_b : ends (exec (.lbu 5 6 3) (lab 0x100 0 0x1004 0)) 5 0x000000DE 0x104 = true := by decide
theorem test_lh_a : ends (exec (.lh 5 6 (-4)) (lab 0x100 0 0x1004 0)) 5 0xFFFFFF80 0x104 = true := by decide
theorem test_lh_b : ends (exec (.lh 5 6 (-2)) (lab 0x100 0 0x1004 0)) 5 0x0000007F 0x104 = true := by decide
theorem test_lhu_a : ends (exec (.lhu 5 6 (-4)) (lab 0x100 0 0x1004 0)) 5 0x0000FF80 0x104 = true := by decide
theorem test_lhu_b : ends (exec (.lhu 5 6 2) (lab 0x100 0 0x1004 0)) 5 0x0000DEAD 0x104 = true := by decide
theorem test_lw_a : ends (exec (.lw 5 6 0) (lab 0x100 0 0x1004 0)) 5 0xDEADBEEF 0x104 = true := by decide
theorem test_lw_both_faults : faults (exec (.lw 5 6 1) (lab 0x100 0 0x2000 0)) (.loadAddrMisaligned 0x100 0x2001) = true := by
  decide

/-! ### Stores (V-ST, over the memory of V-LD) -/

theorem test_sb_a : stores (exec (.sb 6 7 (-1)) (lab 0x100 0 0x1004 0x11223344)) 0x1000 0x447FFF80 0xDEADBEEF = true := by
  decide
theorem test_sb_code : faults (exec (.sb 6 7 0) (lab 0x100 0 0xFFF 0x11223344)) (.storeAccessFault 0x100 0xFFF) = true := by
  decide
theorem test_sh_a : stores (exec (.sh 6 7 (-2)) (lab 0x100 0 0x1004 0x11223344)) 0x1000 0x3344FF80 0xDEADBEEF = true := by
  decide
theorem test_sh_misaligned : faults (exec (.sh 6 7 1) (lab 0x100 0 0x1004 0)) (.storeAddrMisaligned 0x100 0x1005) = true := by
  decide
theorem test_sw_a : stores (exec (.sw 6 7 0) (lab 0x100 0 0x1004 0x11223344)) 0x1000 0x007FFF80 0x11223344 = true := by decide
theorem test_sw_code : faults (exec (.sw 6 7 0) (lab 0x100 0 0xFFC 0)) (.storeAccessFault 0x100 0xFFC) = true := by decide

/-! ### Branches (V-BR): a pair on which taken and not taken tell the six apart, and the pc after -/

theorem test_beq_a : ends (exec (.beq 5 6 (-8)) (lab 0x100 0xFFFFFFFF 0xFFFFFFFF 0)) 5 0xFFFFFFFF 0xF8 = true := by decide
theorem test_bne_a : ends (exec (.bne 5 6 (-8)) (lab 0x100 0xFFFFFFFF 0xFFFFFFFF 0)) 5 0xFFFFFFFF 0x104 = true := by decide
theorem test_blt_a : ends (exec (.blt 5 6 (-8)) (lab 0x100 0xFFFFFFFF 0xFFFFFFFF 0)) 5 0xFFFFFFFF 0x104 = true := by decide
theorem test_bge_a : ends (exec (.bge 5 6 (-8)) (lab 0x100 0xFFFFFFFF 0xFFFFFFFF 0)) 5 0xFFFFFFFF 0xF8 = true := by decide
theorem test_bltu_a : ends (exec (.bltu 5 6 (-8)) (lab 0x100 0xFFFFFFFF 0xFFFFFFFF 0)) 5 0xFFFFFFFF 0x104 = true := by decide
theorem test_bgeu_a : ends (exec (.bgeu 5 6 (-8)) (lab 0x100 0xFFFFFFFF 0xFFFFFFFF 0)) 5 0xFFFFFFFF 0xF8 = true := by decide
theorem test_beq_b : ends (exec (.beq 5 6 (-8)) (lab 0x100 0xFFFFFFFF 0x00000000 0)) 5 0xFFFFFFFF 0x104 = true := by decide
theorem test_bne_b : ends (exec (.bne 5 6 (-8)) (lab 0x100 0xFFFFFFFF 0x00000000 0)) 5 0xFFFFFFFF 0xF8 = true := by decide
theorem test_blt_b : ends (exec (.blt 5 6 (-8)) (lab 0x100 0xFFFFFFFF 0x00000000 0)) 5 0xFFFFFFFF 0xF8 = true := by decide
theorem test_bge_b : ends (exec (.bge 5 6 (-8)) (lab 0x100 0xFFFFFFFF 0x00000000 0)) 5 0xFFFFFFFF 0x104 = true := by decide
theorem test_bltu_b : ends (exec (.bltu 5 6 (-8)) (lab 0x100 0x00000000 0xFFFFFFFF 0)) 5 0x00000000 0xF8 = true := by decide
theorem test_bgeu_b : ends (exec (.bgeu 5 6 (-8)) (lab 0x100 0x00000000 0xFFFFFFFF 0)) 5 0x00000000 0x104 = true := by decide

/-! ### Upper immediates and jumps (V-UI, V-JP) -/

theorem test_lui_a : ends (exec (.lui 5 0xDEADC) (lab 0x0 1 0 0)) 5 0xDEADC000 0x4 = true := by decide
theorem test_auipc_a : ends (exec (.auipc 5 0xFFFFF) (lab 0x100 0 0 0)) 5 0xFFFFF100 0x104 = true := by decide
theorem test_auipc_b : ends (exec (.auipc 5 0x1) (lab 0xC 0 0 0)) 5 0x100C 0x10 = true := by decide
theorem test_jal_a : ends (exec (.jal 1 16) (lab 0x100 0 0 0)) 1 0x104 0x110 = true := by decide
theorem test_jal_b : faults (exec (.jal 5 2) (lab 0x40 0x55555555 0 0)) (.instrAddrMisaligned 0x40 0x42) = true := by decide
theorem test_jalr_a : ends (exec (.jalr 5 5 3) (lab 0x40 0x201 0 0)) 5 0x44 0x204 = true := by decide
theorem test_jalr_b : faults (exec (.jalr 1 5 3) (lab 0x40 0x200 0 0)) (.instrAddrMisaligned 0x40 0x202) = true := by decide

/-! ### The step (V-STEP) -/

theorem test_step_end : step (lab 0x2000 0 0 0) = .refused .runEnded := by rfl
theorem test_step_fetch_outside : faults (step (lab 0x1000 0 0 0)) (.instrAccessFault 0x1000) = true := by decide
theorem test_step_unaligned : faults (step (lab 0x102 0 0 0)) (.instrAddrMisaligned 0x102 0x102) = true := by decide

/-! ### Assembly text (V-SRC-1b, V-SRC-2, V-SRC-3) -/

theorem test_assemble_add : assembleLine [] 0 "ADD a3, a2, a1".toList = some (.add 13 12 11) := by decide
theorem test_assemble_load : assembleLine [] 0 "lw x14, 8(x2)".toList = some (.lw 14 2 8) := by decide
theorem test_assemble_store : assembleLine [] 0 "sw x14, 8(x2)".toList = some (.sw 2 14 8) := by decide
theorem test_assemble_range : assembleLine [] 0 "addi x1, x0, 2048".toList = none := by decide

/-! ### Witnesses: what meets the hypotheses of each statement, each clause of it at the ends of its range -/

theorem witness_DecodeAfterEncodeGivesInstruction :
    (Instr.beq 19 10 (-4096)).wellFormed = true ∧ (Instr.jal 31 1048574).wellFormed = true := by decide
theorem witness_EncodeAfterDecodeGivesWord : decode 0xFFF30293#32 = .ok (.addi 5 6 (-1)) := by decide
theorem witness_DecodeAgreesWithOpcodeTable :
    ⟨.ADD, .R, 0x00000033#32, 0xFE00707F#32⟩ ∈ opcodeTable ∧ 0x00C586B3#32 &&& 0xFE00707F#32 = 0x00000033#32 := by decide
theorem witness_UnusedSelectors_op :
    [0x027302B3#32, 0xFE0002B3#32, 0x407312B3#32, 0x407372B3#32].map (fun w => (opcodeField w, funct7Field w, funct3Field w))
      = [(0b0110011#7, 0b0000001#7, 0b000#3), (0b0110011#7, 0b1111111#7, 0b000#3), (0b0110011#7, 0b0100000#7, 0b001#3),
        (0b0110011#7, 0b0100000#7, 0b111#3)] := by decide
theorem witness_UnusedSelectors_opImm :
    [0x02031293#32, 0xFE031293#32, 0x02035293#32, 0xFE035293#32].map (fun w => (opcodeField w, funct7Field w, funct3Field w))
      = [(0b0010011#7, 0b0000001#7, 0b001#3), (0b0010011#7, 0b1111111#7, 0b001#3), (0b0010011#7, 0b0000001#7, 0b101#3),
        (0b0010011#7, 0b1111111#7, 0b101#3)] := by decide
theorem witness_UnusedSelectors_load :
    [0x00033283#32, 0x00036283#32, 0x00037283#32].map (fun w => (opcodeField w, funct3Field w))
      = [(0b0000011#7, 0b011#3), (0b0000011#7, 0b110#3), (0b0000011#7, 0b111#3)] := by decide
theorem witness_UnusedSelectors_store :
    [0x00733023#32, 0x00734023#32, 0x00735023#32, 0x00736023#32, 0x00737023#32].map (fun w => (opcodeField w, funct3Field w))
      = [(0b0100011#7, 0b011#3), (0b0100011#7, 0b100#3), (0b0100011#7, 0b101#3), (0b0100011#7, 0b110#3),
        (0b0100011#7, 0b111#3)] := by decide
theorem witness_UnusedSelectors_branch_jalr :
    [0x00002063#32, 0x00003063#32, 0x00009067#32, 0x0000F067#32].map (fun w => (opcodeField w, funct3Field w))
      = [(0b1100011#7, 0b010#3), (0b1100011#7, 0b011#3), (0b1100111#7, 0b001#3), (0b1100111#7, 0b111#3)] := by decide
theorem witness_WordsNotEndingIn11SelectNothing :
    (0x00000000#32).toNat % 4 ≠ 3 ∧ (0xFFFFFFFE#32).toNat % 4 ≠ 3 ∧ State.reset.pc ≠ State.reset.endPc ∧
    State.reset.pc.toNat % 4 = 0 ∧ fetch State.reset = .ok 0x00000000#32 := by
  refine ⟨by decide, by decide, by decide, by decide, by rfl⟩
theorem witness_UnmatchedWordRaisesIllegalInstruction :
    State.reset.pc ≠ State.reset.endPc ∧ State.reset.pc.toNat % 4 = 0 ∧ fetch State.reset = .ok 0x00000000#32 ∧
    ∀ r ∈ opcodeTable, 0x00000000#32 &&& r.mask ≠ r.pattern := by
  refine ⟨by decide, by decide, by rfl, by decide⟩
theorem witness_ImmediatesBitByBit : 0 < 32 ∧ 31 < 32 := by decide
theorem witness_RegisterZeroHardwiredOthersOrdinary : (1 : RegIdx) ≠ 0 ∧ (31 : RegIdx) ≠ 0 ∧ (0 : RegIdx) ≠ 31 := by decide

theorem witness_MemReadFollowsItsRule_misaligned :
    (0x1001#32).toNat % AccessSize.half.bytes ≠ 0 ∧ (0xFFFFFFFF#32).toNat % AccessSize.word.bytes ≠ 0 := by decide
theorem witness_MemReadFollowsItsRule_absent :
    (0x2000#32).toNat % AccessSize.word.bytes = 0 ∧
    ∃ k, k < AccessSize.word.bytes ∧ State.reset.inMem ((0x2000#32).toNat + k) = false := ⟨by decide, 0, by decide, by decide⟩
theorem witness_MemReadFollowsItsRule_ok :
    (0x1FFC#32).toNat % AccessSize.word.bytes = 0 ∧
    ∀ k, k < AccessSize.word.bytes → State.reset.inMem ((0x1FFC#32).toNat + k) = true := by decide
theorem witness_MemWriteFollowsItsRule_misaligned : (0x1001#32).toNat % AccessSize.half.bytes ≠ 0 := by decide
theorem witness_MemWriteFollowsItsRule_absent :
    (0x0FFC#32).toNat % AccessSize.word.bytes = 0 ∧ (0x2000#32).toNat % AccessSize.word.bytes = 0 ∧
    (∃ k, k < AccessSize.word.bytes ∧ State.reset.inCode ((0x0FFC#32).toNat + k) = true) ∧
    (∃ k, k < AccessSize.word.bytes ∧ State.reset.inMem ((0x2000#32).toNat + k) = false) :=
  ⟨by decide, by decide, ⟨3, by decide, by decide⟩, ⟨0, by decide, by decide⟩⟩
theorem witness_MemWriteFollowsItsRule_ok :
    (0x1000#32).toNat % AccessSize.word.bytes = 0 ∧ ∀ k, k < AccessSize.word.bytes →
      State.reset.inMem ((0x1000#32).toNat + k) = true ∧ State.reset.inCode ((0x1000#32).toNat + k) = false := by decide
theorem witness_FetchFollowsItsRule :
    (∃ k, k < 4 ∧ (lab 0x1000 0 0 0).inCode ((lab 0x1000 0 0 0).pc.toNat + k) = false) ∧
    (∀ k, k < 4 → (lab 0xFFC 0 0 0).inCode ((lab 0xFFC 0 0 0).pc.toNat + k) = true) := ⟨⟨0, by decide, by decide⟩, by decide⟩
theorem witness_PermissionsOfTheMap :
    State.reset.inCode (0xFFF#32).toNat = true ∧ State.reset.inCode (0x1000#32).toNat = false ∧
    State.reset.inMem (0x1FFF#32).toNat = true ∧ State.reset.inMem (0x2000#32).toNat = false := by decide
theorem witness_MixedWidthViews : 0 < 4 ∧ 3 < 4 := by decide
theorem witness_BitwiseStatements : 0 < 32 ∧ 31 < 32 := by decide

theorem witness_LoadByteExtends_ok :
    (effAddr (lab 0 0 0x1FFF 0) 6 0).toNat % 1 = 0 ∧
    ∀ k, k < 1 → (lab 0 0 0x1FFF 0).inMem ((effAddr (lab 0 0 0x1FFF 0) 6 0).toNat + k) = true := by decide
theorem witness_LoadByteExtends_absent :
    (effAddr (lab 0 0 0x1FFF 0) 6 1).toNat % 1 = 0 ∧
    ∃ k, k < 1 ∧ (lab 0 0 0x1FFF 0).inMem ((effAddr (lab 0 0 0x1FFF 0) 6 1).toNat + k) = false :=
  ⟨by decide, 0, by decide, by decide⟩
theorem witness_LoadHalfExtends_ok :
    (effAddr (lab 0 0 0x1FFE 0) 6 0).toNat % 2 = 0 ∧
    ∀ k, k < 2 → (lab 0 0 0x1FFE 0).inMem ((effAddr (lab 0 0 0x1FFE 0) 6 0).toNat + k) = true := by decide
theorem witness_LoadHalfExtends_faults :
    (effAddr (lab 0 0 0x1FFE 0) 6 1).toNat % 2 ≠ 0 ∧ (effAddr (lab 0 0 0x1FFE 0) 6 2).toNat % 2 = 0 ∧
    ∃ k, k < 2 ∧ (lab 0 0 0x1FFE 0).inMem ((effAddr (lab 0 0 0x1FFE 0) 6 2).toNat + k) = false :=
  ⟨by decide, by decide, 0, by decide, by decide⟩
theorem witness_LoadWordLittleEndian_ok :
    (effAddr (lab 0 0 0x1FFC 0) 6 0).toNat % 4 = 0 ∧
    ∀ k, k < 4 → (lab 0 0 0x1FFC 0).inMem ((effAddr (lab 0 0 0x1FFC 0) 6 0).toNat + k) = true := by decide
theorem witness_LoadWordLittleEndian_faults :
    (effAddr (lab 0 0 0x1FFC 0) 6 3).toNat % 4 ≠ 0 ∧ (effAddr (lab 0 0 0x1FFC 0) 6 4).toNat % 4 = 0 ∧
    ∃ k, k < 4 ∧ (lab 0 0 0x1FFC 0).inMem ((effAddr (lab 0 0 0x1FFC 0) 6 4).toNat + k) = false :=
  ⟨by decide, by decide, 0, by decide, by decide⟩
theorem witness_StoreByteWritesOneByte_ok :
    (effAddr (lab 0 0 0x1000 0) 6 0).toNat % 1 = 0 ∧
    ∀ k, k < 1 → (lab 0 0 0x1000 0).inMem ((effAddr (lab 0 0 0x1000 0) 6 0).toNat + k) = true ∧
      (lab 0 0 0x1000 0).inCode ((effAddr (lab 0 0 0x1000 0) 6 0).toNat + k) = false := by decide
theorem witness_StoreByteWritesOneByte_faults :
    (∃ k, k < 1 ∧ (lab 0 0 0x1000 0).inCode ((effAddr (lab 0 0 0x1000 0) 6 (-1)).toNat + k) = true) ∧
    (∃ k, k < 1 ∧ (lab 0 0 0x1FFF 0).inMem ((effAddr (lab 0 0 0x1FFF 0) 6 1).toNat + k) = false) :=
  ⟨⟨0, by decide, by decide⟩, ⟨0, by decide, by decide⟩⟩
theorem witness_StoreHalfWritesTwoBytes_ok :
    (effAddr (lab 0 0 0x1FFE 0) 6 0).toNat % 2 = 0 ∧
    ∀ k, k < 2 → (lab 0 0 0x1FFE 0).inMem ((effAddr (lab 0 0 0x1FFE 0) 6 0).toNat + k) = true ∧
      (lab 0 0 0x1FFE 0).inCode ((effAddr (lab 0 0 0x1FFE 0) 6 0).toNat + k) = false := by decide
theorem witness_StoreHalfWritesTwoBytes_faults :
    (effAddr (lab 0 0 0x1000 0) 6 (-1)).toNat % 2 ≠ 0 ∧ (effAddr (lab 0 0 0x1000 0) 6 (-2)).toNat % 2 = 0 ∧
    ∃ k, k < 2 ∧ (lab 0 0 0x1000 0).inCode ((effAddr (lab 0 0 0x1000 0) 6 (-2)).toNat + k) = true :=
  ⟨by decide, by decide, 1, by decide, by decide⟩
theorem witness_StoreWordWritesFourBytes_ok :
    (effAddr (lab 0 0 0x1000 0) 6 0).toNat % 4 = 0 ∧
    ∀ k, k < 4 → (lab 0 0 0x1000 0).inMem ((effAddr (lab 0 0 0x1000 0) 6 0).toNat + k) = true ∧
      (lab 0 0 0x1000 0).inCode ((effAddr (lab 0 0 0x1000 0) 6 0).toNat + k) = false := by decide
theorem witness_StoreWordWritesFourBytes_faults :
    (effAddr (lab 0 0 0x1000 0) 6 2).toNat % 4 ≠ 0 ∧ (effAddr (lab 0 0 0x1000 0) 6 (-4)).toNat % 4 = 0 ∧
    ∃ k, k < 4 ∧ (lab 0 0 0x1000 0).inCode ((effAddr (lab 0 0 0x1000 0) 6 (-4)).toNat + k) = true :=
  ⟨by decide, by decide, 3, by decide, by decide⟩
theorem witness_LoadAfterStoreReturnsStoredWord :
    ∃ t, exec (.sw 6 7 4) (lab 0 0 0x1000 0x11223344) = .next t ∧
      effAddr t 6 4 = effAddr (lab 0 0 0x1000 0x11223344) 6 4 := ⟨_, rfl, rfl⟩

/-- The targets 0x100 + 4094 (no multiple of 4) and 0x100 - 4096 (one, modulo 2^32) of the widest offsets. -/
theorem witness_BranchTargets :
    (4094 : BitVec 13).getLsbD 0 = false ∧ (-4096 : BitVec 13).getLsbD 0 = false ∧
    ((lab 0x100 0 0 0).pc + sx (4094 : BitVec 13)).toNat % 4 ≠ 0 ∧
    ((lab 0x100 0 0 0).pc + sx (-4096 : BitVec 13)).toNat % 4 = 0 := by decide
theorem witness_BranchOnEquality :
    (lab 0x100 7 7 0).reg 5 = (lab 0x100 7 7 0).reg 6 ∧ (lab 0x100 7 8 0).reg 5 ≠ (lab 0x100 7 8 0).reg 6 := by decide
theorem witness_BranchOnSignedOrder :
    ((lab 0x100 0x80000000 0x7FFFFFFF 0).reg 5).toInt < ((lab 0x100 0x80000000 0x7FFFFFFF 0).reg 6).toInt ∧
    ((lab 0x100 7 7 0).reg 6).toInt ≤ ((lab 0x100 7 7 0).reg 5).toInt := by decide
theorem witness_BranchOnUnsignedOrder :
    ((lab 0x100 0 0xFFFFFFFF 0).reg 5).toNat < ((lab 0x100 0 0xFFFFFFFF 0).reg 6).toNat ∧
    ((lab 0x100 7 7 0).reg 6).toNat ≤ ((lab 0x100 7 7 0).reg 5).toNat := by decide
theorem witness_JalLinksAndJumps :
    (-1048576 : BitVec 21).getLsbD 0 = false ∧ (1048574 : BitVec 21).getLsbD 0 = false ∧
    ((lab 0x100 0 0 0).pc + sx (-1048576 : BitVec 21)).toNat % 4 = 0 ∧
    ((lab 0x100 0 0 0).pc + sx (1048574 : BitVec 21)).toNat % 4 ≠ 0 := by decide
theorem witness_JalrLinksAndJumps :
    ((lab 0x40 0x201 0 0).reg 5 + sx (3 : BitVec 12)).getLsbD 1 = false ∧
    ((lab 0x40 0x200 0 0).reg 5 + sx (3 : BitVec 12)).getLsbD 1 = true := by decide
theorem witness_ReturnComesBackAfterTheCall :
    (lab 0x100 0 0 0).pc.toNat % 4 = 0 ∧
    ∃ t u : State, exec (.jal 1 16) (lab 0x100 0 0 0) = .next t ∧ u.reg 1 = t.reg 1 ∧ u.pc ≠ t.pc :=
  ⟨by decide, _, (lab 0x200 0 0 0).setReg 1 0x104, rfl, by decide, by decide⟩
theorem witness_LuiAddiBuildsAnyConstant :
    (5 : RegIdx) ≠ 0 ∧ (0xFFFFFEEF#32 : Word) = sx ((0xDEADBEEF#32).extractLsb' 0 12) ∧
    (0xDEADC : BitVec 20) = (0xDEADBEEF#32 - 0xFFFFFEEF#32).extractLsb' 12 20 := by decide
theorem witness_AuipcPairReachesAnyAddress : (1 : RegIdx) ≠ 0 ∧ (0xFFFFFFFC#32).toNat % 4 = 0 := by decide
theorem witness_RegisterPseudoInstructions : (31 : RegIdx) ≠ 0 := by decide
theorem witness_BranchPseudoInstructions_taken :
    (-8 : BitVec 13).getLsbD 0 = false ∧ ((lab 0x100 0 0 0).pc + sx (-8 : BitVec 13)).toNat % 4 = 0 ∧
    (lab 0x100 0 0 0).reg 5 = 0 ∧ (lab 0x100 1 0 0).reg 5 ≠ 0 ∧ ((lab 0x100 0x80000000 0 0).reg 5).toInt < 0 ∧
    0 < ((lab 0x100 1 0 0).reg 5).toInt ∧ ((lab 0x100 1 0 0).reg 6).toNat < ((lab 0x100 1 0 0).reg 5).toNat := by decide
theorem witness_JumpPseudoInstructions :
    (8 : BitVec 21).getLsbD 0 = false ∧ ((lab 0x100 0 0 0).pc + sx (8 : BitVec 21)).toNat % 4 = 0 ∧
    ((lab 0x100 0x200 0 0).reg 5).toNat % 4 = 0 ∧ ((lab 0x100 0 0 0).reg 1).toNat % 4 = 0 := by decide
theorem witness_DestinationZeroChangesNoRegister :
    (Instr.jal 0 16).dest = some 0 ∧ ∃ t, exec (.jal 0 16) (lab 0x100 0 0 0) = .next t := ⟨rfl, _, rfl⟩

/-- The reset state with ADDI x1, x0, 5 placed at its pc. -/
def placed : State := State.reset.withFetchWord 32 0x00500093

theorem witness_StepRunsDecodedInstruction :
    placed.pc ≠ placed.endPc ∧ placed.pc.toNat % 4 = 0 ∧ (∀ k, k < 4 → placed.inCode (placed.pc.toNat + k) = true) ∧
    decode (wordOfBytes (placed.mem.read placed.pc.toNat) (placed.mem.read (placed.pc.toNat + 1))
      (placed.mem.read (placed.pc.toNat + 2)) (placed.mem.read (placed.pc.toNat + 3))) = .ok (.addi 1 0 5) := by decide
theorem witness_StepTestsInOrder_end : (lab 0x2000 0 0 0).pc = (lab 0x2000 0 0 0).endPc := by decide
theorem witness_StepTestsInOrder_misaligned :
    (lab 0x1FFE 0 0 0).pc ≠ (lab 0x1FFE 0 0 0).endPc ∧ (lab 0x1FFE 0 0 0).pc.toNat % 4 ≠ 0 := by decide
theorem witness_StepTestsInOrder_fetch :
    (lab 0x1000 0 0 0).pc ≠ (lab 0x1000 0 0 0).endPc ∧ (lab 0x1000 0 0 0).pc.toNat % 4 = 0 ∧
    ∃ k, k < 4 ∧ (lab 0x1000 0 0 0).inCode ((lab 0x1000 0 0 0).pc.toNat + k) = false :=
  ⟨by decide, by decide, 0, by decide, by decide⟩
theorem witness_StepTestsInOrder_illegal :
    (lab 0xFFC 0 0 0).pc ≠ (lab 0xFFC 0 0 0).endPc ∧ (lab 0xFFC 0 0 0).pc.toNat % 4 = 0 ∧
    (∀ k, k < 4 → (lab 0xFFC 0 0 0).inCode ((lab 0xFFC 0 0 0).pc.toNat + k) = true) ∧
    (0#32).toNat = leWord (fun k => (lab 0xFFC 0 0 0).mem.read ((lab 0xFFC 0 0 0).pc.toNat + k)) ∧
    decode 0#32 = .error .definedIllegal := by decide
theorem witness_StepTestsInOrder_runs :
    placed.pc ≠ placed.endPc ∧ placed.pc.toNat % 4 = 0 ∧ (∀ k, k < 4 → placed.inCode (placed.pc.toNat + k) = true) ∧
    (0x00500093#32).toNat = leWord (fun k => placed.mem.read (placed.pc.toNat + k)) ∧
    decode 0x00500093#32 = .ok (.addi 1 0 5) := by decide
theorem witness_OnlyTheEndOfTheRunIsRefused : step (lab 0x2000 0 0 0) = .refused .runEnded := by rfl
theorem witness_FaultedRunKeepsTheStateBefore :
    ∃ f t, run 2 placed = .faulted f t ∧ t.pc = 4 := ⟨_, _, rfl, rfl⟩
theorem witness_LaunchStateHoldsItsArguments :
    (State.launch ⟨Config.exampleMap, 0xFFC, 0x2000, Config.exampleRegs, [(0x1FFF, 7#8)]⟩).inMem 0x1FFF = true ∧
    [((0x1FFF, 7#8) : Host.Cell)].Pairwise (fun d e => d.1 ≠ e.1) ∧
    LaunchArgs.ok ⟨Config.exampleMap, 0xFFC, 0x2000, Config.exampleRegs, [(0x1FFF, 7#8)]⟩ = true := by decide
theorem witness_StepKeepsInvariant : placed.Inv ∧ ∃ t, step placed = .next t :=
  ⟨⟨by decide, by decide, by decide, by decide⟩, _, rfl⟩
theorem witness_ProgramTextNeverChanges :
    ∃ t, Host.Core.run Sys2Proof.core 1 placed = .next t ∧ placed.inCode 0xFFF = true := ⟨_, rfl, by decide⟩
theorem witness_StepKeepsParameters : ∃ t, step placed = .next t := ⟨_, rfl⟩
theorem witness_OnlyStoresChangeMemory :
    (∃ t, exec (.lw 5 6 0) (lab 0 0 0x1000 0) = .next t) ∧ (Instr.lw 5 6 0).mnemonic ≠ .SB ∧
    (Instr.lw 5 6 0).mnemonic ≠ .SH ∧ (Instr.lw 5 6 0).mnemonic ≠ .SW := ⟨⟨_, rfl⟩, by decide⟩
theorem witness_OnlyTheDestinationRegisterChanges :
    (∃ t, exec (.add 5 6 7) (lab 0 0 1 2) = .next t) ∧ (Instr.add 5 6 7).dest ≠ some 6 ∧
    (∃ t, exec (.sw 6 7 0) (lab 0 0 0x1000 2) = .next t) ∧ (Instr.sw 6 7 0).dest ≠ some 7 :=
  ⟨⟨_, rfl⟩, by decide, ⟨_, rfl⟩, by decide⟩

/-- Every instruction of the nine clauses completes in one state. -/
theorem witness_NextPcOfEveryInstruction :
    ∀ i ∈ [Instr.beq 5 5 8, .bne 5 6 8, .blt 5 6 8, .bge 6 5 8, .bltu 5 6 8, .bgeu 6 5 8, .jal 1 8, .jalr 1 6 0, .add 7 5 6],
      completes (exec i (lab 0x100 0 4 0)) = true := by decide
theorem witness_FaultsByInstruction :
    faults (exec (.jal 1 2) (lab 0x100 0 0 0)) (.instrAddrMisaligned 0x100 0x102) = true ∧
    faults (exec (.lh 5 6 1) (lab 0x100 0 0x1000 0)) (.loadAddrMisaligned 0x100 0x1001) = true ∧
    faults (exec (.lb 5 6 0) (lab 0x100 0 0x2000 0)) (.loadAccessFault 0x100 0x2000) = true ∧
    faults (exec (.sh 6 7 1) (lab 0x100 0 0x1000 0)) (.storeAddrMisaligned 0x100 0x1001) = true ∧
    faults (exec (.sb 6 7 0) (lab 0x100 0 0xFFF 0)) (.storeAccessFault 0x100 0xFFF) = true := by decide
theorem witness_PlacedWordIsTheNextInstruction :
    State.reset.pc.toNat % 4 = 0 ∧ decode 0x00500093#32 = .ok (.addi 1 0 5) := by decide

end Sys2Proof.Tests
end

section
/-! What decodes is well formed (spec/30_encoding.md R90, R98). Only the branch and JAL offsets are restricted, and the
fields that they are read from end in the constant bit 0 (R81, R83). -/

namespace Sys2Proof

@[simp] theorem branchOffsetOk_immBField (w : Word) : branchOffsetOk (immBField w) = true := by
  rw [branchOffsetOk, getLsbD_immBField, if_pos rfl, Bool.not_false]

@[simp] theorem jumpOffsetOk_immJField (w : Word) : jumpOffsetOk (immJField w) = true := by
  rw [jumpOffsetOk, getLsbD_immJField, if_pos rfl, Bool.not_false]

section
variable {w : Word} {i : Instr}

theorem decodeOp_wellFormed (h : decodeOp w = .ok i) : i.wellFormed = true := by
  unfold decodeOp at h
  split at h <;> cases h <;> rfl

theorem decodeOpImm_wellFormed (h : decodeOpImm w = .ok i) : i.wellFormed = true := by
  unfold decodeOpImm at h
  split at h
  case h_7 | h_8 => split at h <;> cases h <;> rfl
  all_goals cases h; rfl

theorem decodeLoad_wellFormed (h : decodeLoad w = .ok i) : i.wellFormed = true := by
  unfold decodeLoad at h
  split at h <;> cases h <;> rfl

theorem decodeStore_wellFormed (h : decodeStore w = .ok i) : i.wellFormed = true := by
  unfold decodeStore at h
  split at h <;> cases h <;> rfl

theorem decodeBranch_wellFormed (h : decodeBranch w = .ok i) : i.wellFormed = true := by
  unfold decodeBranch at h
  split at h <;> cases h <;> exact branchOffsetOk_immBField w

theorem decodeJalr_wellFormed (h : decodeJalr w = .ok i) : i.wellFormed = true := by
  unfold decodeJalr at h
  split at h <;> cases h
  rfl

/-- One case a group of the opcode (R86). -/
theorem decode_wellFormed (h : decode w = .ok i) : i.wellFormed = true := by
  unfold decode at h
  split at h
  · exact decodeOp_wellFormed h
  · exact decodeOpImm_wellFormed h
  · exact decodeLoad_wellFormed h
  · exact decodeStore_wellFormed h
  · exact decodeBranch_wellFormed h
  · cases h; rfl
  · cases h; rfl
  · cases h; exact jumpOffsetOk_immJField w
  · exact decodeJalr_wellFormed h
  · cases h

end

end Sys2Proof
end

section
/-! What a step answers once the run has not ended (spec/00_scope.md R15): the tests of the step in the words of the
statements, and the step as the rule of the instruction it decodes. -/

namespace Sys2Proof.Machine

/-- The model tests alignment on the two low bits, the statements on the number. -/
theorem lowBits_eq_zero_iff (a : Word) : a.extractLsb' 0 2 = 0b00#2 ↔ a.toNat % 4 = 0 := by
  simp [← BitVec.toNat_inj]

theorem Memory.readSized_word (m : Memory) (a : Nat) :
    m.readSized a .word = wordOfBytes (m.read a) (m.read (a + 1)) (m.read (a + 2)) (m.read (a + 3)) := rfl

section
variable {s : State}

theorem step_eq_exec {w : Word} {i : Instr} (hend : s.pc ≠ s.endPc) (halign : s.pc.toNat % 4 = 0)
    (hfetch : fetch s = .ok w) (hdec : decode w = .ok i) : step s = exec i s := by
  have hlow : s.pc.extractLsb' 0 2 = 0b00#2 := (lowBits_eq_zero_iff s.pc).2 halign
  simp [step, hend, hlow, hfetch, hdec]

theorem fetch_of_inCode (hcode : ∀ k, k < 4 → s.inCode (s.pc.toNat + k) = true) :
    fetch s = .ok (wordOfBytes (s.mem.read s.pc.toNat) (s.mem.read (s.pc.toNat + 1)) (s.mem.read (s.pc.toNat + 2))
      (s.mem.read (s.pc.toNat + 3))) := by
  rw [fetch_of_executable (State.executable_iff.2 hcode), Memory.readSized_word]

end

/-- Settles O44: the four bytes are the word that the fetch answers, and whatever decodes is well formed. -/
theorem stepRunsDecodedInstruction : Obligations.StepRunsDecodedInstruction := by
  unfold Obligations.StepRunsDecodedInstruction
  intro s i hend halign hcode hdec
  exact ⟨step_eq_exec hend halign (fetch_of_inCode hcode) hdec, decode_wellFormed hdec⟩

end Sys2Proof.Machine
end

section
/-! What a completed instruction and a completed step can do, said once (spec/10_state.md R25, R31, R33): the pc becomes
`pcAfter`, and beside it the instruction writes its destination register, or bytes that a store may write, or nothing. The
frame statements and the invariant follow from these facts and do not go through the instructions again. -/

namespace Sys2Proof.Machine
open Sys2Proof.Claims

/-! ### The conditions of the branches and the addresses in the words of the statements -/

section
variable (a b : Word)

@[simp] theorem condEq_iff : condEq a b = true ↔ a = b := by simp [condEq]
@[simp] theorem condNe_iff : condNe a b = true ↔ a ≠ b := by simp [condNe]
@[simp] theorem condLt_iff : condLt a b = true ↔ a.toInt < b.toInt := by simp [condLt, lessSigned, BitVec.slt]
@[simp] theorem condGe_iff : condGe a b = true ↔ b.toInt ≤ a.toInt := by simp [condGe, lessSigned, BitVec.slt]
@[simp] theorem condLtu_iff : condLtu a b = true ↔ a.toNat < b.toNat := by simp [condLtu, lessUnsigned, BitVec.ult]
@[simp] theorem condGeu_iff : condGeu a b = true ↔ b.toNat ≤ a.toNat := by simp [condGeu, lessUnsigned, BitVec.ult]

end

theorem branchTarget_eq (s : State) (imm : BitVec 13) : branchTarget s imm = s.pc + sx imm := rfl

theorem jalTarget_eq (s : State) (imm : BitVec 21) : jalTarget s imm = s.pc + sx imm := rfl

/-- Clearing bit 0 rounds down to an even number. -/
theorem toNat_clearBit0 (a : Word) : (a.extractLsb' 1 31 ++ 0#1).toNat = a.toNat / 2 * 2 := by
  have hhigh : (a.extractLsb' 1 31).toNat = a.toNat / 2 := by
    rw [BitVec.extractLsb'_toNat, Nat.shiftRight_one]
    omega
  rw [BitVec.toNat_append, hhigh, BitVec.toNat_zero, Nat.or_zero, Nat.shiftLeft_eq, pow_one]

theorem toNat_jalrTarget (s : State) (rs1 : RegIdx) (imm : BitVec 12) :
    (jalrTarget s rs1 imm).toNat = (s.reg rs1 + sx imm).toNat / 2 * 2 := toNat_clearBit0 _

/-- The next instruction of an aligned one is aligned, also where the address wraps (R25). -/
theorem nextPc_aligned {s : State} (h : s.pc.extractLsb' 0 2 = 0b00#2) : s.nextPc.extractLsb' 0 2 = 0b00#2 := by
  rw [lowBits_eq_zero_iff] at h ⊢
  rw [State.nextPc, BitVec.toNat_add]
  simp only [BitVec.toNat_ofNat]
  omega

/-! ### The next pc of every instruction -/

/-- Where a branch goes when it completes. -/
def branchPc (cond : Word → Word → Bool) (rs1 rs2 : RegIdx) (imm : BitVec 13) (s : State) : Word :=
  if cond (s.reg rs1) (s.reg rs2) then branchTarget s imm else s.nextPc

/-- The pc after the instruction, when it completes (R25). -/
def pcAfter (s : State) : Instr → Word
  | .beq rs1 rs2 imm => branchPc condEq rs1 rs2 imm s
  | .bne rs1 rs2 imm => branchPc condNe rs1 rs2 imm s
  | .blt rs1 rs2 imm => branchPc condLt rs1 rs2 imm s
  | .bge rs1 rs2 imm => branchPc condGe rs1 rs2 imm s
  | .bltu rs1 rs2 imm => branchPc condLtu rs1 rs2 imm s
  | .bgeu rs1 rs2 imm => branchPc condGeu rs1 rs2 imm s
  | .jal _ imm => jalTarget s imm
  | .jalr _ rs1 imm => jalrTarget s rs1 imm
  | _ => s.nextPc

/-- A branch on a condition that says `P` of its two registers. -/
theorem branchPc_eq {cond : Word → Word → Bool} {rs1 rs2 : RegIdx} (imm : BitVec 13) {s : State} {P : Prop} [Decidable P]
    (h : cond (s.reg rs1) (s.reg rs2) = true ↔ P) :
    branchPc cond rs1 rs2 imm s = if P then s.pc + sx imm else s.pc + 4#32 := by
  rw [branchPc, branchTarget_eq, State.nextPc]
  exact if_congr h rfl rfl

/-! ### What an instruction writes beside the pc -/

/-- `u` is `s` with what the instruction `i` may write beside the pc: its destination register; or, for a store, bytes that
may be written; or nothing. -/
inductive WritesOf (s : State) (i : Instr) : State → Prop where
  | register (rd : RegIdx) (v : Word) (hdest : i.dest = some rd) : WritesOf s i (s.setReg rd v)
  | memory (addr : Nat) (sz : AccessSize) (v : BitVec sz.bits) (hstore : i.mnemonic ∈ [.SB, .SH, .SW])
      (hwritable : s.writable addr sz.bytes = true) : WritesOf s i (s.setMem (s.mem.writeSized addr sz v))
  | nothing : WritesOf s i s

namespace WritesOf
variable {s u : State} {i : Instr}

theorem sameParameters (h : WritesOf s i u) : sameParameters s u := by
  cases h <;> exact ⟨rfl, rfl⟩

theorem mem_eq (h : WritesOf s i u) (hi : i.mnemonic ∉ [.SB, .SH, .SW]) : u.mem = s.mem := by
  cases h with
  | register => rfl
  | memory addr sz v hstore => exact absurd hstore hi
  | nothing => rfl

theorem reg_eq (h : WritesOf s i u) {r : RegIdx} (hr : i.dest ≠ some r) : u.reg r = s.reg r := by
  cases h with
  | register rd v hdest =>
    have hne : r ≠ rd := fun e => hr (e ▸ hdest)
    rw [State.reg_setReg, if_neg fun hc => hne hc.1]
  | memory => rfl
  | nothing => rfl

theorem wf (h : WritesOf s i u) (hs : s.mem.wf) : u.mem.wf := by
  cases h with
  | register => exact hs
  | memory addr sz v => exact Memory.wf_writeSized hs addr sz v
  | nothing => exact hs

/-- A cell that a store adds is at an address it may write, which is one of `MEM` (R42). -/
theorem memInMap (h : WritesOf s i u) (hs : ∀ c ∈ s.mem, s.inMem c.1 = true) : ∀ c ∈ u.mem, u.inMem c.1 = true := by
  cases h with
  | register => exact hs
  | memory addr sz v hstore hwritable =>
    intro c hc
    rcases Memory.mem_writeSized hc with hold | ⟨hlow, hhigh⟩
    · exact hs c hold
    · obtain ⟨hmem, -⟩ := State.writable_iff.1 hwritable (c.1 - addr) (by omega)
      rwa [Nat.add_sub_cancel' hlow] at hmem
  | nothing => exact hs

end WritesOf

/-! ### What a completed instruction has done -/

/-- `t` is a state that the instruction `i` may complete in from `s`: it has written what `WritesOf` allows, the pc is
`pcAfter`, and a pc that is not that of the next instruction has passed the alignment test of R171 and R202. -/
structure CompletesIn (i : Instr) (s t : State) : Prop where
  written : ∃ u, WritesOf s i u ∧ t = u.setPc (pcAfter s i)
  target : pcAfter s i = s.nextPc ∨ (pcAfter s i).extractLsb' 0 2 = 0b00#2

section
variable {i : Instr} {s t : State}

theorem jumpTo_next {u : State} {target : Word} (h : jumpTo s u target = .next t) :
    target.extractLsb' 0 2 = 0b00#2 ∧ t = u.setPc target := by
  rcases jumpTo_cases s u target with ⟨halign, heq⟩ | ⟨-, heq⟩ <;> cases heq.symm.trans h
  exact ⟨halign, rfl⟩

theorem completesIn_of_retire {rd : RegIdx} {v : Word} (hdest : i.dest = some rd) (hpc : pcAfter s i = s.nextPc)
    (h : retire s rd v = .next t) : CompletesIn i s t := by
  cases (retire_eq s rd v).symm.trans h
  exact ⟨⟨_, .register rd v hdest, by rw [hpc]⟩, .inl hpc⟩

theorem completesIn_of_load {sz : AccessSize} {ext : BitVec sz.bits → Word} {rd rs1 : RegIdx} {imm : BitVec 12}
    (hdest : i.dest = some rd) (hpc : pcAfter s i = s.nextPc) (h : execLoad sz ext rd rs1 imm s = .next t) :
    CompletesIn i s t := by
  rcases execLoad_cases sz ext rd rs1 imm s with ⟨v, -, heq⟩ | ⟨f, -, heq⟩
  · exact completesIn_of_retire hdest hpc (heq.symm.trans h)
  · cases heq.symm.trans h

theorem completesIn_of_store {sz : AccessSize} {rs1 rs2 : RegIdx} {imm : BitVec 12}
    (hstore : i.mnemonic ∈ [.SB, .SH, .SW]) (hpc : pcAfter s i = s.nextPc)
    (h : execStore sz rs1 rs2 imm s = .next t) : CompletesIn i s t := by
  rcases execStore_cases sz rs1 rs2 imm s with ⟨u, hwrite, heq⟩ | ⟨f, -, heq⟩ <;> cases heq.symm.trans h
  obtain ⟨-, hwritable, rfl⟩ := memWrite_ok hwrite
  exact ⟨⟨_, .memory _ sz _ hstore hwritable, by rw [hpc]⟩, .inl hpc⟩

theorem completesIn_of_branch {cond : Word → Word → Bool} {rs1 rs2 : RegIdx} {imm : BitVec 13}
    (hpc : pcAfter s i = branchPc cond rs1 rs2 imm s) (h : execBranch cond rs1 rs2 imm s = .next t) :
    CompletesIn i s t := by
  rcases execBranch_cases cond rs1 rs2 imm s with ⟨hcond, heq⟩ | ⟨hcond, heq⟩
  · have hpc : pcAfter s i = branchTarget s imm := by rw [hpc, branchPc, if_pos hcond]
    obtain ⟨halign, rfl⟩ := jumpTo_next (heq.symm.trans h)
    exact ⟨⟨s, .nothing, by rw [hpc]⟩, .inr (hpc ▸ halign)⟩
  · have hpc : pcAfter s i = s.nextPc := by rw [hpc, branchPc, hcond, if_neg Bool.false_ne_true]
    cases heq.symm.trans h
    exact ⟨⟨s, .nothing, by rw [hpc]⟩, .inl hpc⟩

theorem completesIn_of_jump {rd : RegIdx} (hdest : i.dest = some rd) (h : execJump rd (pcAfter s i) s = .next t) :
    CompletesIn i s t := by
  obtain ⟨halign, rfl⟩ := jumpTo_next h
  exact ⟨⟨_, .register rd s.nextPc hdest, rfl⟩, .inr halign⟩

/-- One case a family: the operands differ within a family, what the instruction may do does not. -/
theorem exec_next (h : exec i s = .next t) : CompletesIn i s t := by
  cases i with
  | add | sub | sll | slt | sltu | xor | srl | sra | or | and | addi | slti | sltiu | xori | ori | andi | slli | srli
  | srai | lui | auipc => exact completesIn_of_retire rfl rfl h
  | lb | lh | lw | lbu | lhu => exact completesIn_of_load rfl rfl h
  | sb | sh | sw => exact completesIn_of_store (by simp [Instr.mnemonic]) rfl h
  | beq | bne | blt | bge | bltu | bgeu => exact completesIn_of_branch rfl h
  | jal | jalr => exact completesIn_of_jump rfl h

/-- A step answers a next state only where every test of R15 passes and the decoded instruction completes. -/
theorem step_next (h : step s = .next t) :
    s.pc ≠ s.endPc ∧ s.pc.extractLsb' 0 2 = 0b00#2 ∧
      ∃ w i, fetch s = .ok w ∧ decode w = .ok i ∧ exec i s = .next t := by
  unfold step at h
  split at h
  · cases h
  · next hend =>
    split at h
    · cases h
    · next halign =>
      split at h
      · cases h
      · next w hfetch =>
        split at h
        · cases h
        · next i hdec => exact ⟨hend, not_not.1 halign, w, i, hfetch, hdec, h⟩

theorem step_completesIn (h : step s = .next t) : ∃ i, CompletesIn i s t := by
  obtain ⟨-, -, -, i, -, -, hexec⟩ := step_next h
  exact ⟨i, exec_next hexec⟩

end

namespace CompletesIn
variable {i : Instr} {s t : State}

theorem pc_eq (h : CompletesIn i s t) : t.pc = pcAfter s i := by
  obtain ⟨u, -, rfl⟩ := h.written
  rfl

theorem pcAligned (h : CompletesIn i s t) (hs : s.pc.extractLsb' 0 2 = 0b00#2) : t.pc.extractLsb' 0 2 = 0b00#2 := by
  rw [h.pc_eq]
  rcases h.target with hnext | halign
  · rw [hnext]; exact nextPc_aligned hs
  · exact halign

theorem sameParameters (h : CompletesIn i s t) : sameParameters s t := by
  obtain ⟨u, hu, rfl⟩ := h.written
  exact hu.sameParameters

theorem mem_eq (h : CompletesIn i s t) (hi : i.mnemonic ∉ [.SB, .SH, .SW]) : t.mem = s.mem := by
  obtain ⟨u, hu, rfl⟩ := h.written
  exact hu.mem_eq hi

theorem reg_eq (h : CompletesIn i s t) {r : RegIdx} (hr : i.dest ≠ some r) : t.reg r = s.reg r := by
  obtain ⟨u, hu, rfl⟩ := h.written
  exact hu.reg_eq hr

theorem inv (h : CompletesIn i s t) (hs : s.Inv) : t.Inv := by
  obtain ⟨-, hend⟩ := h.sameParameters
  have hpc := h.pcAligned hs.pcAligned
  obtain ⟨u, hu, rfl⟩ := h.written
  exact ⟨hpc, hend ▸ hs.endPcAligned, hu.wf hs.memCanonical, hu.memInMap hs.memInMap⟩

end CompletesIn

/-! ### The statements about the state -/

/-- Settles O9, by the laws of reading a register after a write. -/
theorem registerZeroHardwiredOthersOrdinary : Obligations.RegisterZeroHardwiredOthersOrdinary := by
  unfold Obligations.RegisterZeroHardwiredOthersOrdinary
  intro s r q v
  refine ⟨State.reg_zero s, State.setReg_zero s v, fun hr => ?_, fun hq => ?_⟩
  · rw [State.reg_setReg, if_pos ⟨rfl, hr⟩]
  · rw [State.reg_setReg, if_neg fun hc => hq hc.1]

/-- Settles O53. -/
theorem stepKeepsParameters : Obligations.StepKeepsParameters := by
  unfold Obligations.StepKeepsParameters
  intro s t h
  obtain ⟨i, hi⟩ := step_completesIn h
  exact hi.sameParameters

/-- Settles O54. -/
theorem onlyStoresChangeMemory : Obligations.OnlyStoresChangeMemory := by
  unfold Obligations.OnlyStoresChangeMemory
  intro i s t h hsb hsh hsw
  exact (exec_next h).mem_eq (by simp [hsb, hsh, hsw])

/-- Settles O55. -/
theorem onlyTheDestinationRegisterChanges : Obligations.OnlyTheDestinationRegisterChanges := by
  unfold Obligations.OnlyTheDestinationRegisterChanges
  intro i s t r h hr
  exact (exec_next h).reg_eq hr

/-- Settles O56: the pc is `pcAfter`, and the six conditions are the comparisons of the statement. -/
theorem nextPcOfEveryInstruction : Obligations.NextPcOfEveryInstruction := by
  unfold Obligations.NextPcOfEveryInstruction
  intro i s t h
  have hpc := (exec_next h).pc_eq
  cases i with
  | beq => exact hpc.trans (branchPc_eq _ (condEq_iff _ _))
  | bne => exact hpc.trans (branchPc_eq _ (condNe_iff _ _))
  | blt => exact hpc.trans (branchPc_eq _ (condLt_iff _ _))
  | bge => exact hpc.trans (branchPc_eq _ (condGe_iff _ _))
  | bltu => exact hpc.trans (branchPc_eq _ (condLtu_iff _ _))
  | bgeu => exact hpc.trans (branchPc_eq _ (condGeu_iff _ _))
  | jal rd imm => exact hpc.trans (jalTarget_eq s imm)
  | jalr rd rs1 imm => exact (congrArg BitVec.toNat hpc).trans (toNat_jalrTarget s rs1 imm)
  | _ => exact hpc

/-- Settles O51: the alignment of a new pc is the next instruction's or was tested, and stores write inside `MEM`. -/
theorem stepKeepsInvariant : Obligations.StepKeepsInvariant := by
  unfold Obligations.StepKeepsInvariant
  intro s t hs h
  obtain ⟨i, hi⟩ := step_completesIn h
  exact hi.inv hs

end Sys2Proof.Machine
end

section
/-! The value of an access and the bytes it is made of (spec/20_memory.md R43, R52): a value is told by its bytes, and a part
of a stored value reads as that part, at whatever width. -/

namespace Sys2Proof.Machine
open Sys2Proof.Claims

theorem AccessSize.bits_eq (sz : AccessSize) : sz.bits = 8 * sz.bytes := by
  cases sz <;> rfl

/-- Bit `i` is bit `i % 8` of byte `i / 8`. -/
theorem eq_of_bytes_eq {sz : AccessSize} {v w : BitVec sz.bits}
    (h : ∀ k, k < sz.bytes → v.extractLsb' (8 * k) 8 = w.extractLsb' (8 * k) 8) : v = w := by
  refine BitVec.eq_of_getLsbD_eq fun i hi => ?_
  have hk : i / 8 < sz.bytes := by rw [sz.bits_eq] at hi; omega
  have hbit := congrArg (BitVec.getLsbD · (i % 8)) (h (i / 8) hk)
  simpa [Nat.mod_lt, Nat.div_add_mod] using hbit

theorem extractLsb'_extractLsb'_of_add_le {w : Nat} (v : BitVec w) {off len start n : Nat} (h : start + n ≤ len) :
    (v.extractLsb' off len).extractLsb' start n = v.extractLsb' (off + start) n := by
  refine BitVec.eq_of_getLsbD_eq fun i hi => ?_
  have hlt : start + i < len := by omega
  simp [hi, hlt, Nat.add_assoc]

namespace Memory

/-- The value read has the byte of the lowest address as its least significant byte (R43). -/
theorem extractLsb'_readSized (m : Memory) (a : Nat) (sz : AccessSize) {k : Nat} (hk : k < sz.bytes) :
    (m.readSized a sz).extractLsb' (8 * k) 8 = m.read (a + k) := by
  cases sz with
  | byte =>
    obtain rfl : k = 0 := by simpa using hk
    exact BitVec.extractLsb'_eq_self
  | half =>
    obtain rfl | rfl : k = 0 ∨ k = 1 := by simp only [AccessSize.bytes] at hk; omega
    · exact BitVec.extractLsb'_append_eq_right
    · exact BitVec.extractLsb'_append_eq_left
  | word =>
    rw [readSized]
    obtain rfl | rfl | rfl | rfl : k = 0 ∨ k = 1 ∨ k = 2 ∨ k = 3 := by simp only [AccessSize.bytes] at hk; omega
    · exact BitVec.extractLsb'_append_eq_right
    · rw [BitVec.extractLsb'_append_eq_of_le (by omega)]
      exact BitVec.extractLsb'_append_eq_right
    · rw [BitVec.extractLsb'_append_eq_of_le (by omega), BitVec.extractLsb'_append_eq_of_le (by omega)]
      exact BitVec.extractLsb'_append_eq_right
    · rw [BitVec.extractLsb'_append_eq_of_le (by omega), BitVec.extractLsb'_append_eq_of_le (by omega)]
      exact BitVec.extractLsb'_append_eq_left

theorem readSized_eq_of_bytes {m : Memory} {a : Nat} {sz : AccessSize} {v : BitVec sz.bits}
    (h : ∀ k, k < sz.bytes → m.read (a + k) = v.extractLsb' (8 * k) 8) : m.readSized a sz = v :=
  eq_of_bytes_eq fun k hk => (m.extractLsb'_readSized a sz hk).trans (h k hk)

theorem read_writeSized_inside (m : Memory) (a : Nat) {sz : AccessSize} (v : BitVec sz.bits) {k : Nat} (hk : k < sz.bytes) :
    (m.writeSized a sz v).read (a + k) = v.extractLsb' (8 * k) 8 := by
  rw [read_writeSized, if_pos ⟨Nat.le_add_right a k, Nat.add_lt_add_left hk a⟩, Nat.add_sub_cancel_left]

theorem read_writeSized_outside (m : Memory) {a x : Nat} {sz : AccessSize} (v : BitVec sz.bits)
    (hx : x < a ∨ a + sz.bytes ≤ x) : (m.writeSized a sz v).read x = m.read x := by
  rw [read_writeSized, if_neg (by omega)]

/-- Memory keeps no width: a read that falls inside a stored value sees that part of the value (R52). -/
theorem readSized_writeSized_part (m : Memory) (a : Nat) (sz sz' : AccessSize) (v : BitVec sz.bits) {off : Nat}
    (h : off + sz'.bytes ≤ sz.bytes) : (m.writeSized a sz v).readSized (a + off) sz' = v.extractLsb' (8 * off) sz'.bits := by
  refine readSized_eq_of_bytes fun k hk => ?_
  have hpart : 8 * k + 8 ≤ sz'.bits := by rw [sz'.bits_eq]; omega
  rw [Nat.add_assoc, m.read_writeSized_inside a v (by omega), extractLsb'_extractLsb'_of_add_le v hpart, Nat.mul_add]

theorem readSized_writeSized (m : Memory) (a : Nat) (sz : AccessSize) (v : BitVec sz.bits) :
    (m.writeSized a sz v).readSized a sz = v :=
  (m.readSized_writeSized_part a sz sz v (off := 0) (Nat.zero_add _).le).trans BitVec.extractLsb'_eq_self

theorem read_writeSized_byte (m : Memory) (a x : Nat) (b : Byte) :
    (m.writeSized a .byte b).read x = if x = a then b else m.read x := by
  have hwrite : m.writeSized a .byte b = m.write a b :=
    congrArg (m.write a) (BitVec.extractLsb'_eq_self (x := b))
  rw [hwrite, read_write]

end Memory

/-- Settles O14: the four reads of the stored word are parts of it, and of the four bytes stored one by one each is the last
write to its address. -/
theorem mixedWidthViews : Obligations.MixedWidthViews := by
  unfold Obligations.MixedWidthViews
  refine ⟨fun m a v => ⟨fun k hk => ?_, ?_, ?_, ?_⟩, fun m a b0 b1 b2 b3 => ?_⟩
  · exact m.readSized_writeSized_part a .word .byte v hk
  · exact m.readSized_writeSized_part a .word .half (off := 0) v (by decide)
  · exact m.readSized_writeSized_part a .word .half (off := 2) v (by decide)
  · exact m.readSized_writeSized a .word v
  · simp [Memory.readSized_word, Memory.read_writeSized_byte]

/-! ### The value of an instruction word -/

theorem toNat_append_byte {n : Nat} (v : BitVec n) (b : Byte) : (v ++ b).toNat = b.toNat + 2 ^ 8 * v.toNat := by
  rw [BitVec.toNat_append, ← Nat.shiftLeft_add_eq_or_of_lt b.isLt, Nat.shiftLeft_eq, Nat.add_comm, Nat.mul_comm]

theorem toNat_wordOfBytes (b : Nat → Byte) : (wordOfBytes (b 0) (b 1) (b 2) (b 3)).toNat = leWord b := by
  rw [wordOfBytes, toNat_append_byte, toNat_append_byte, toNat_append_byte, leWord]
  omega

end Sys2Proof.Machine
end

section
/-! What the memory map allows (spec/20_memory.md R42) and the rules of `MemRead`, `MemWrite` and `Fetch` (R45 to R47), in
the words of the statements: which byte forbids an access, and exactly when each operation answers a value. -/

namespace Sys2Proof.Machine
open Sys2Proof.Claims

section
variable {s : State} {a n : Nat}

theorem State.readable_eq_false_iff : s.readable a n = false ↔ ∃ k, k < n ∧ s.inMem (a + k) = false := by
  simp [State.readable]

theorem State.writable_eq_false_iff :
    s.writable a n = false ↔ ∃ k, k < n ∧ (s.inMem (a + k) = false ∨ s.inCode (a + k) = true) := by
  simp [State.writable, or_iff_not_imp_left]

theorem State.executable_eq_false_iff : s.executable a n = false ↔ ∃ k, k < n ∧ s.inCode (a + k) = false := by
  simp [State.executable]

/-- `CODE` is read off some of the regions that `MEM` is read off (R6, R42). -/
theorem State.inMem_of_inCode (h : s.inCode a = true) : s.inMem a = true := by
  simp only [State.inCode, State.inMem, Bool.and_eq_true, List.any_eq_true] at h ⊢
  obtain ⟨haddr, r, hr, -, hhas⟩ := h
  exact ⟨haddr, r, hr, hhas⟩

theorem State.readable_of_writable (h : s.writable a n = true) : s.readable a n = true :=
  State.readable_iff.2 fun k hk => (State.writable_iff.1 h k hk).1

@[simp] theorem State.executable_setPc (t : Word) : (s.setPc t).executable a n = s.executable a n := rfl

end

section
variable {s : State} {addr : Word} {sz : AccessSize}

theorem exists_memRead_ok_iff :
    (∃ v, memRead s addr sz = .ok v) ↔ addr.toNat % sz.bytes = 0 ∧ s.readable addr.toNat sz.bytes = true := by
  constructor
  · rintro ⟨v, h⟩
    obtain ⟨halign, hread, -⟩ := memRead_ok h
    exact ⟨halign, hread⟩
  · rintro ⟨halign, hread⟩
    exact ⟨_, memRead_of_readable halign hread⟩

theorem exists_memWrite_ok_iff {v : BitVec sz.bits} :
    (∃ t, memWrite s addr sz v = .ok t) ↔ addr.toNat % sz.bytes = 0 ∧ s.writable addr.toNat sz.bytes = true := by
  constructor
  · rintro ⟨t, h⟩
    obtain ⟨halign, hwrite, -⟩ := memWrite_ok h
    exact ⟨halign, hwrite⟩
  · rintro ⟨halign, hwrite⟩
    exact ⟨_, memWrite_of_writable halign hwrite⟩

theorem exists_fetch_ok_iff : (∃ w, fetch s = .ok w) ↔ s.executable s.pc.toNat 4 = true := by
  cases h : s.executable s.pc.toNat 4 with
  | true => simp [fetch_of_executable h]
  | false => simp [fetch_of_absent h]

end

/-- Settles O10. -/
theorem memReadFollowsItsRule : Obligations.MemReadFollowsItsRule := by
  unfold Obligations.MemReadFollowsItsRule
  intro s addr sz
  refine ⟨memRead_of_misaligned, fun halign habsent => ?_, fun halign hmem => ?_⟩
  · exact memRead_of_absent halign (State.readable_eq_false_iff.2 habsent)
  · exact ⟨_, memRead_of_readable halign (State.readable_iff.2 hmem),
      fun k hk => s.mem.extractLsb'_readSized addr.toNat sz hk⟩

/-- Settles O11. -/
theorem memWriteFollowsItsRule : Obligations.MemWriteFollowsItsRule := by
  unfold Obligations.MemWriteFollowsItsRule
  intro s addr sz v
  refine ⟨memWrite_of_misaligned, fun halign hdenied => ?_, fun halign hallowed => ?_⟩
  · exact memWrite_of_absent halign (State.writable_eq_false_iff.2 hdenied)
  · refine ⟨_, memWrite_of_writable halign (State.writable_iff.2 hallowed), fun k hk => ?_, fun a ha => ?_,
      fun r => rfl, rfl, rfl, rfl⟩
    · exact s.mem.read_writeSized_inside addr.toNat v hk
    · exact s.mem.read_writeSized_outside v ha

/-- Settles O12. -/
theorem fetchFollowsItsRule : Obligations.FetchFollowsItsRule := by
  unfold Obligations.FetchFollowsItsRule
  intro s
  refine ⟨fun habsent => ?_, fun hcode => ?_⟩
  · exact fetch_of_absent (State.executable_eq_false_iff.2 habsent)
  · exact ⟨_, fetch_of_inCode hcode, toNat_wordOfBytes fun k => s.mem.read (s.pc.toNat + k)⟩

/-- Settles O13: an access of one byte is aligned everywhere, so only its permission is left. -/
theorem permissionsOfTheMap : Obligations.PermissionsOfTheMap := by
  unfold Obligations.PermissionsOfTheMap
  intro s a b
  refine ⟨State.inMem_of_inCode, ?_, ?_, ?_⟩
  · rw [exists_memRead_ok_iff, State.readable_iff]
    simp [Nat.mod_one]
  · rw [exists_memWrite_ok_iff, State.writable_iff]
    simp [Nat.mod_one]
  · rw [exists_fetch_ok_iff, State.executable_setPc, State.setPc_pc, State.executable_iff]

end Sys2Proof.Machine
end

section
/-! A load after a store of the same address (spec/20_memory.md R54, R57; spec/70_reset_and_hazards.md R255). -/

namespace Sys2Proof.Machine
open Sys2Proof.Claims

theorem exec_sw (rs1 rs2 : RegIdx) (imm : BitVec 12) (s : State) :
    exec (.sw rs1 rs2 imm) s = execStore .word rs1 rs2 imm s := rfl

theorem exec_lw (rd rs1 : RegIdx) (imm : BitVec 12) (s : State) :
    exec (.lw rd rs1 imm) s = execLoad .word id rd rs1 imm s := rfl

/-- A completed store wrote the low bits of x[rs2] at an aligned address, each byte of which may be stored. -/
theorem execStore_next {sz : AccessSize} {rs1 rs2 : RegIdx} {imm : BitVec 12} {s t : State}
    (h : execStore sz rs1 rs2 imm s = .next t) :
    (effAddr s rs1 imm).toNat % sz.bytes = 0 ∧ s.writable (effAddr s rs1 imm).toNat sz.bytes = true ∧
      t = (s.setMem (s.mem.writeSized (effAddr s rs1 imm).toNat sz ((s.reg rs2).extractLsb' 0 sz.bits))).setPc s.nextPc := by
  rcases execStore_cases sz rs1 rs2 imm s with ⟨u, hwrite, heq⟩ | ⟨f, -, heq⟩ <;> cases heq.symm.trans h
  obtain ⟨halign, hwritable, rfl⟩ := memWrite_ok hwrite
  exact ⟨halign, hwritable, rfl⟩

theorem execLoad_of_readable {sz : AccessSize} {ext : BitVec sz.bits → Word} {rd rs1 : RegIdx} {imm : BitVec 12} {s : State}
    (halign : (effAddr s rs1 imm).toNat % sz.bytes = 0) (hread : s.readable (effAddr s rs1 imm).toNat sz.bytes = true) :
    execLoad sz ext rd rs1 imm s = retire s rd (ext (s.mem.readSized (effAddr s rs1 imm).toNat sz)) := by
  rw [execLoad, memRead_of_readable halign hread]

theorem pcAdvanced_setPc_nextPc (s u : State) : pcAdvanced s (u.setPc s.nextPc) := BitVec.toNat_add s.pc 4#32

/-- One instruction that ends by writing rd. -/
theorem seqWritesOnlyRd_of_retire {i : Instr} {s : State} {rd : RegIdx} {v : Word} (h : exec i s = retire s rd v) :
    seqWritesOnlyRd [i] s rd v := by
  refine ⟨(s.setReg rd v).setPc s.nextPc, ?_, fun r => ?_, pcAdvanced_setPc_nextPc s _, fun a => rfl, rfl, rfl⟩
  · rw [execSeq, h, retire_eq]
    rfl
  · exact State.reg_setReg s rd r v

/-- Settles O29: bytes that may be stored may be loaded, and the word read is the one written. -/
theorem loadAfterStoreReturnsStoredWord : Obligations.LoadAfterStoreReturnsStoredWord := by
  unfold Obligations.LoadAfterStoreReturnsStoredWord
  intro s t rs1 rs2 rd base imm off hstore haddr
  obtain ⟨halign, hwritable, ht⟩ := execStore_next ((exec_sw rs1 rs2 imm s).symm.trans hstore)
  have hread : t.readable (effAddr t base off).toNat 4 = true := by
    rw [haddr, ht]
    exact State.readable_of_writable hwritable
  have hword : t.mem.readSized (effAddr t base off).toNat .word = s.reg rs2 := by
    rw [haddr, ht]
    exact (s.mem.readSized_writeSized _ .word _).trans BitVec.extractLsb'_eq_self
  refine seqWritesOnlyRd_of_retire ?_
  rw [exec_lw, execLoad_of_readable (haddr ▸ halign) hread, hword, id]

end Sys2Proof.Machine
end

section
/-! The program text along a run (spec/20_memory.md R60): a completed instruction writes no byte of `CODE` and does not move
`CODE`, and what every step keeps a run keeps. -/

namespace Sys2Proof.Machine
open Sys2Proof.Claims

/-- `CODE` is the same set of addresses in both states and each of its bytes reads the same. -/
def sameProgramText (s t : State) : Prop :=
  ∀ a, t.inCode a = s.inCode a ∧ (s.inCode a = true → t.mem.read a = s.mem.read a)

theorem sameProgramText_refl (s : State) : sameProgramText s s := fun _ => ⟨rfl, fun _ => rfl⟩

theorem sameProgramText_trans {s t u : State} (hst : sameProgramText s t) (htu : sameProgramText t u) :
    sameProgramText s u := by
  intro a
  obtain ⟨hcode, hread⟩ := hst a
  obtain ⟨hcode', hread'⟩ := htu a
  exact ⟨hcode'.trans hcode, fun ha => (hread' (hcode.trans ha)).trans (hread ha)⟩

/-- A byte of `CODE` is not among the bytes of a store, each of which is outside `CODE` (R42). -/
theorem WritesOf.read_of_inCode {s u : State} {i : Instr} (h : WritesOf s i u) {a : Nat} (ha : s.inCode a = true) :
    u.mem.read a = s.mem.read a := by
  cases h with
  | register => rfl
  | memory addr sz v hstore hwritable =>
    refine s.mem.read_writeSized_outside v ?_
    by_contra hinside
    obtain ⟨-, hdata⟩ := State.writable_iff.1 hwritable (a - addr) (by omega)
    rw [Nat.add_sub_cancel' (by omega), ha] at hdata
    cases hdata
  | nothing => rfl

theorem CompletesIn.sameProgramText {i : Instr} {s t : State} (h : CompletesIn i s t) : sameProgramText s t := by
  intro a
  obtain ⟨hmap, -⟩ := h.sameParameters
  obtain ⟨u, hu, rfl⟩ := h.written
  exact ⟨State.inCode_congr hmap a, hu.read_of_inCode⟩

theorem run_succ_next_iff {k : Nat} {s t : State} :
    Host.Core.run Sys2Proof.core (k + 1) s = .next t ↔
      ∃ u, step s = .next u ∧ Host.Core.run Sys2Proof.core k u = .next t := by
  cases h : step s <;> simp [Host.Core.run, Sys2Proof.core, h]

/-- What every step keeps holds after any number of completed steps. -/
theorem run_next_induction {P : State → Prop} (hstep : ∀ u v, P u → step u = .next v → P v) {k : Nat} {s t : State}
    (hs : P s) (h : Host.Core.run Sys2Proof.core k s = .next t) : P t := by
  induction k generalizing s with
  | zero =>
    cases h
    exact hs
  | succ k ih =>
    obtain ⟨u, hfirst, hrest⟩ := run_succ_next_iff.1 h
    exact ih (hstep s u hs hfirst) hrest

/-- Settles O52, by induction on the number of steps. -/
theorem programTextNeverChanges : Obligations.ProgramTextNeverChanges := by
  unfold Obligations.ProgramTextNeverChanges
  intro k s t h
  refine run_next_induction (P := sameProgramText s) (fun u v hu huv => ?_) (sameProgramText_refl s) h
  obtain ⟨i, hi⟩ := step_completesIn huv
  exact sameProgramText_trans hu hi.sameProgramText

end Sys2Proof.Machine
end

section
/-! Decoding and encoding are inverse (spec/30_encoding.md R86, R87, R98): the opcode selects the group, the group answers an
instruction made of the word's own fields, and the word is packed from the same fields. -/

namespace Sys2Proof

section
variable {w : Word} {i : Instr}

/-! ### The opcode selects the group (R86) -/

theorem decode_of_op (h : opcodeField w = 0b0110011#7) : decode w = decodeOp w := by simp [decode, h]
theorem decode_of_opImm (h : opcodeField w = 0b0010011#7) : decode w = decodeOpImm w := by simp [decode, h]
theorem decode_of_load (h : opcodeField w = 0b0000011#7) : decode w = decodeLoad w := by simp [decode, h]
theorem decode_of_store (h : opcodeField w = 0b0100011#7) : decode w = decodeStore w := by simp [decode, h]
theorem decode_of_branch (h : opcodeField w = 0b1100011#7) : decode w = decodeBranch w := by simp [decode, h]
theorem decode_of_jalr (h : opcodeField w = 0b1100111#7) : decode w = decodeJalr w := by simp [decode, h]

theorem decode_of_lui (h : opcodeField w = 0b0110111#7) : decode w = .ok (.lui (rdField w) (immUField w)) := by
  simp [decode, h]

theorem decode_of_auipc (h : opcodeField w = 0b0010111#7) : decode w = .ok (.auipc (rdField w) (immUField w)) := by
  simp [decode, h]

theorem decode_of_jal (h : opcodeField w = 0b1101111#7) : decode w = .ok (.jal (rdField w) (immJField w)) := by
  simp [decode, h]

/-! ### Decode after encode -/

theorem getLsbD_zero_of_branchOffsetOk {imm : BitVec 13} (h : branchOffsetOk imm = true) : imm.getLsbD 0 = false := by
  simpa [branchOffsetOk] using h

theorem getLsbD_zero_of_jumpOffsetOk {imm : BitVec 21} (h : jumpOffsetOk imm = true) : imm.getLsbD 0 = false := by
  simpa [jumpOffsetOk] using h

/-- One case a group of the opcode: the fields of the packed word are what was packed. A branch or JAL offset comes back
because its bit 0 is zero. -/
theorem decode_encode (h : i.wellFormed = true) : decode (encode i) = .ok i := by
  cases i with
  | add | sub | sll | slt | sltu | xor | srl | sra | or | and =>
    rw [encode, decode_of_op (opcodeField_packR ..)]
    simp [decodeOp]
  | addi | slti | sltiu | xori | ori | andi =>
    rw [encode, decode_of_opImm (opcodeField_packI ..)]
    simp [decodeOpImm]
  | slli | srli | srai =>
    rw [encode, decode_of_opImm (opcodeField_packR ..)]
    simp [decodeOpImm]
  | lb | lh | lw | lbu | lhu =>
    rw [encode, decode_of_load (opcodeField_packI ..)]
    simp [decodeLoad]
  | sb | sh | sw =>
    rw [encode, decode_of_store (opcodeField_packS ..)]
    simp [decodeStore]
  | beq | bne | blt | bge | bltu | bgeu =>
    rw [encode, decode_of_branch (opcodeField_packB ..)]
    simp [decodeBranch, immBField_packB (h := getLsbD_zero_of_branchOffsetOk h)]
  | lui | auipc => simp [encode, decode_of_lui, decode_of_auipc]
  | jal =>
    rw [encode, decode_of_jal (opcodeField_packJ ..)]
    simp [immJField_packJ (h := getLsbD_zero_of_jumpOffsetOk h)]
  | jalr =>
    rw [encode, decode_of_jalr (opcodeField_packI ..)]
    simp [decodeJalr]

/-! ### Encode after decode

A word is packed from its own fields, of which the selectors are known. -/

theorem packR_eq_of_fields {f7 : BitVec 7} {f3 : BitVec 3} {op : BitVec 7} (h7 : funct7Field w = f7)
    (h3 : funct3Field w = f3) (hop : opcodeField w = op) : packR f7 (rs2Field w) (rs1Field w) f3 (rdField w) op = w := by
  subst h7 h3 hop
  exact packR_fields w

theorem packI_eq_of_fields {f3 : BitVec 3} {op : BitVec 7} (h3 : funct3Field w = f3) (hop : opcodeField w = op) :
    packI (immIField w) (rs1Field w) f3 (rdField w) op = w := by
  subst h3 hop
  exact packI_fields w

theorem packS_eq_of_fields {f3 : BitVec 3} {op : BitVec 7} (h3 : funct3Field w = f3) (hop : opcodeField w = op) :
    packS (immSField w) (rs2Field w) (rs1Field w) f3 op = w := by
  subst h3 hop
  exact packS_fields w

theorem packB_eq_of_fields {f3 : BitVec 3} {op : BitVec 7} (h3 : funct3Field w = f3) (hop : opcodeField w = op) :
    packB (immBField w) (rs2Field w) (rs1Field w) f3 op = w := by
  subst h3 hop
  exact packB_fields w

theorem packU_eq_of_fields {op : BitVec 7} (hop : opcodeField w = op) : packU (immUField w) (rdField w) op = w := by
  subst hop
  exact packU_fields w

theorem packJ_eq_of_fields {op : BitVec 7} (hop : opcodeField w = op) : packJ (immJField w) (rdField w) op = w := by
  subst hop
  exact packJ_fields w

theorem encode_of_decodeOp (hop : opcodeField w = 0b0110011#7) (h : decodeOp w = .ok i) : encode i = w := by
  unfold decodeOp at h
  split at h <;> cases h <;> exact packR_eq_of_fields ‹_› ‹_› hop

/-- The one value of funct3 that the last case of `decodeOpImm` is left with. -/
theorem eq_101_of_ne {f3 : BitVec 3} (h0 : f3 ≠ 0b000#3) (h2 : f3 ≠ 0b010#3) (h3 : f3 ≠ 0b011#3) (h4 : f3 ≠ 0b100#3)
    (h6 : f3 ≠ 0b110#3) (h7 : f3 ≠ 0b111#3) (h1 : f3 ≠ 0b001#3) : f3 = 0b101#3 := by
  bv_omega

/-- The shift amount is in the place of rs2 (R84). -/
theorem encode_of_decodeOpImm (hop : opcodeField w = 0b0010011#7) (h : decodeOpImm w = .ok i) : encode i = w := by
  unfold decodeOpImm at h
  split at h
  case h_7 h3 =>
    split at h <;> cases h
    exact packR_eq_of_fields ‹_› h3 hop
  case h_8 h0 h2 h3 h4 h6 h7 h1 =>
    have h5 := eq_101_of_ne h0 h2 h3 h4 h6 h7 h1
    split at h <;> cases h <;> exact packR_eq_of_fields ‹_› h5 hop
  all_goals cases h; exact packI_eq_of_fields ‹_› hop

theorem encode_of_decodeLoad (hop : opcodeField w = 0b0000011#7) (h : decodeLoad w = .ok i) : encode i = w := by
  unfold decodeLoad at h
  split at h <;> cases h <;> exact packI_eq_of_fields ‹_› hop

theorem encode_of_decodeStore (hop : opcodeField w = 0b0100011#7) (h : decodeStore w = .ok i) : encode i = w := by
  unfold decodeStore at h
  split at h <;> cases h <;> exact packS_eq_of_fields ‹_› hop

theorem encode_of_decodeBranch (hop : opcodeField w = 0b1100011#7) (h : decodeBranch w = .ok i) : encode i = w := by
  unfold decodeBranch at h
  split at h <;> cases h <;> exact packB_eq_of_fields ‹_› hop

theorem encode_of_decodeJalr (hop : opcodeField w = 0b1100111#7) (h : decodeJalr w = .ok i) : encode i = w := by
  unfold decodeJalr at h
  split at h <;> cases h
  exact packI_eq_of_fields ‹_› hop

/-- One case a group of the opcode (R86). -/
theorem encode_of_decode (h : decode w = .ok i) : encode i = w := by
  unfold decode at h
  split at h
  next hop => exact encode_of_decodeOp hop h
  next hop => exact encode_of_decodeOpImm hop h
  next hop => exact encode_of_decodeLoad hop h
  next hop => exact encode_of_decodeStore hop h
  next hop => exact encode_of_decodeBranch hop h
  next hop => cases h; exact packU_eq_of_fields hop
  next hop => cases h; exact packU_eq_of_fields hop
  next hop => cases h; exact packJ_eq_of_fields hop
  next hop => exact encode_of_decodeJalr hop h
  next => cases h

end

/-- Settles O1. -/
theorem decodeAfterEncodeGivesInstruction : Obligations.DecodeAfterEncodeGivesInstruction := by
  unfold Obligations.DecodeAfterEncodeGivesInstruction
  intro i h
  exact decode_encode h

/-- Settles O2. -/
theorem encodeAfterDecodeGivesWord : Obligations.EncodeAfterDecodeGivesWord := by
  unfold Obligations.EncodeAfterDecodeGivesWord
  intro w i h
  exact ⟨encode_of_decode h, decode_wellFormed h⟩

end Sys2Proof
end

section
/-! The opcode table as a second account of `decode` (spec/30_encoding.md R87, R88, R91, R92): a word decodes to the mnemonic
of the row it selects, and a word that selects no row decodes to nothing and ends the step that fetches it. -/

namespace Sys2Proof

section
variable {w p : Word} {i : Instr}

/-! ### The row of a decoded instruction -/

open Laws in
/-- The family of Laws/PerInstr.lean, over every instruction. -/
theorem encodedWordSelectsRow : ∀ i : Instr, EncodedWordSelectsRow.Statement i
  | .add .. => EncodedWordSelectsRow.add ..
  | .sub .. => EncodedWordSelectsRow.sub ..
  | .sll .. => EncodedWordSelectsRow.sll ..
  | .slt .. => EncodedWordSelectsRow.slt ..
  | .sltu .. => EncodedWordSelectsRow.sltu ..
  | .xor .. => EncodedWordSelectsRow.xor ..
  | .srl .. => EncodedWordSelectsRow.srl ..
  | .sra .. => EncodedWordSelectsRow.sra ..
  | .or .. => EncodedWordSelectsRow.or ..
  | .and .. => EncodedWordSelectsRow.and ..
  | .addi .. => EncodedWordSelectsRow.addi ..
  | .slti .. => EncodedWordSelectsRow.slti ..
  | .sltiu .. => EncodedWordSelectsRow.sltiu ..
  | .xori .. => EncodedWordSelectsRow.xori ..
  | .ori .. => EncodedWordSelectsRow.ori ..
  | .andi .. => EncodedWordSelectsRow.andi ..
  | .slli .. => EncodedWordSelectsRow.slli ..
  | .srli .. => EncodedWordSelectsRow.srli ..
  | .srai .. => EncodedWordSelectsRow.srai ..
  | .lb .. => EncodedWordSelectsRow.lb ..
  | .lh .. => EncodedWordSelectsRow.lh ..
  | .lw .. => EncodedWordSelectsRow.lw ..
  | .lbu .. => EncodedWordSelectsRow.lbu ..
  | .lhu .. => EncodedWordSelectsRow.lhu ..
  | .sb .. => EncodedWordSelectsRow.sb ..
  | .sh .. => EncodedWordSelectsRow.sh ..
  | .sw .. => EncodedWordSelectsRow.sw ..
  | .beq .. => EncodedWordSelectsRow.beq ..
  | .bne .. => EncodedWordSelectsRow.bne ..
  | .blt .. => EncodedWordSelectsRow.blt ..
  | .bge .. => EncodedWordSelectsRow.bge ..
  | .bltu .. => EncodedWordSelectsRow.bltu ..
  | .bgeu .. => EncodedWordSelectsRow.bgeu ..
  | .lui .. => EncodedWordSelectsRow.lui ..
  | .auipc .. => EncodedWordSelectsRow.auipc ..
  | .jal .. => EncodedWordSelectsRow.jal ..
  | .jalr .. => EncodedWordSelectsRow.jalr ..

theorem exists_row_of_decode (h : decode w = .ok i) :
    ∃ r ∈ opcodeTable, r.mnemonic = i.mnemonic ∧ w &&& r.mask = r.pattern := by
  obtain ⟨r, hr, hm, hsel⟩ := encodedWordSelectsRow i
  rw [encode_of_decode h] at hsel
  exact ⟨r, hr, hm, eq_of_beq hsel⟩

/-! ### The instruction of a selected row

Each of the three masks keeps some of the selector fields, so a word has the selectors of a pattern it matches. -/

theorem fields_of_and_mask (h : w &&& 0xFE00707F#32 = p) :
    opcodeField w = p.extractLsb' 0 7 ∧ funct3Field w = p.extractLsb' 12 3 ∧ funct7Field w = p.extractLsb' 25 7 := by
  rw [← packR_fields w, packR_and_mask] at h
  subst h
  exact ⟨(opcodeField_packR ..).symm, (funct3Field_packR ..).symm, (funct7Field_packR ..).symm⟩

theorem fields_of_and_mask3 (h : w &&& 0x0000707F#32 = p) :
    opcodeField w = p.extractLsb' 0 7 ∧ funct3Field w = p.extractLsb' 12 3 := by
  rw [← packR_fields w, packR_and_mask3] at h
  subst h
  exact ⟨(opcodeField_packR ..).symm, (funct3Field_packR ..).symm⟩

theorem opcodeField_of_and_mask0 (h : w &&& 0x0000007F#32 = p) : opcodeField w = p.extractLsb' 0 7 := by
  rw [← packR_fields w, packR_and_mask0] at h
  subst h
  exact (opcodeField_packR ..).symm

/-- The selectors of the row lead the decoder to the row's mnemonic. The mnemonic tells the row's pattern and mask; then one
case a group, in which the decoder's matches are on the closed selectors of the pattern. -/
theorem decode_of_selects {r : OpcodeRow} (hr : r ∈ opcodeTable) (h : w &&& r.mask = r.pattern) :
    ∃ i, decode w = .ok i ∧ i.mnemonic = r.mnemonic := by
  obtain ⟨m, format, pattern, mask⟩ := r
  change w &&& mask = pattern at h
  cases m with obtain ⟨-, rfl, rfl⟩ := by simpa [opcodeTable] using hr
  | ADD | SUB | SLL | SLT | SLTU | XOR | SRL | SRA | OR | AND =>
    simp [decode, decodeOp, fields_of_and_mask h, Instr.mnemonic]
  | ADDI | SLTI | SLTIU | XORI | ORI | ANDI =>
    simp [decode, decodeOpImm, fields_of_and_mask3 h, Instr.mnemonic]
  | SLLI | SRLI | SRAI =>
    simp [decode, decodeOpImm, fields_of_and_mask h, Instr.mnemonic]
  | LB | LH | LW | LBU | LHU =>
    simp [decode, decodeLoad, fields_of_and_mask3 h, Instr.mnemonic]
  | SB | SH | SW =>
    simp [decode, decodeStore, fields_of_and_mask3 h, Instr.mnemonic]
  | BEQ | BNE | BLT | BGE | BLTU | BGEU =>
    simp [decode, decodeBranch, fields_of_and_mask3 h, Instr.mnemonic]
  | JALR =>
    simp [decode, decodeJalr, fields_of_and_mask3 h, Instr.mnemonic]
  | LUI | AUIPC | JAL =>
    simp [decode, opcodeField_of_and_mask0 h, Instr.mnemonic]

theorem opcodeTable_mnemonics_nodup : (opcodeTable.map OpcodeRow.mnemonic).Nodup := by decide

/-- A word decodes to one instruction, and each mnemonic has one row. -/
theorem row_unique {r q : OpcodeRow} (hr : r ∈ opcodeTable) (hq : q ∈ opcodeTable) (hwr : w &&& r.mask = r.pattern)
    (hwq : w &&& q.mask = q.pattern) : r = q := by
  obtain ⟨i, hi, hir⟩ := decode_of_selects hr hwr
  obtain ⟨j, hj, hjq⟩ := decode_of_selects hq hwq
  cases hi.symm.trans hj
  exact List.inj_on_of_nodup_map opcodeTable_mnemonics_nodup hr hq (hir.symm.trans hjq)

/-! ### Words that select no row -/

theorem decode_ne_ok_of_no_row (h : ∀ r ∈ opcodeTable, w &&& r.mask ≠ r.pattern) : decode w ≠ .ok i := by
  intro hdec
  obtain ⟨r, hr, -, hsel⟩ := exists_row_of_decode hdec
  exact h r hr hsel

/-- The opcode of every row ends in 11, and every mask keeps the opcode (R86, R92). -/
theorem opcodeTable_lowBits : ∀ r ∈ opcodeTable, r.mask &&& 0b11#32 = 0b11#32 ∧ r.pattern &&& 0b11#32 = 0b11#32 := by
  decide

theorem and_mask_ne_pattern_of_lowBits (h : w.toNat % 4 ≠ 3) : ∀ r ∈ opcodeTable, w &&& r.mask ≠ r.pattern := by
  intro r hr hsel
  obtain ⟨hmask, hpattern⟩ := opcodeTable_lowBits r hr
  have hlow : w &&& 0b11#32 = 0b11#32 := by
    rw [← hsel, BitVec.and_assoc, hmask] at hpattern
    exact hpattern
  refine h ?_
  simpa [Nat.and_two_pow_sub_one_eq_mod w.toNat 2] using congrArg BitVec.toNat hlow

end

/-- Settles O3: the decoded instruction's row is selected, a selected row's word decodes to its mnemonic, and
each mnemonic names one row. -/
theorem decodeAgreesWithOpcodeTable : Obligations.DecodeAgreesWithOpcodeTable := by
  unfold Obligations.DecodeAgreesWithOpcodeTable
  refine ⟨fun w m => ⟨?_, ?_⟩, fun w r q => row_unique⟩
  · rintro ⟨i, hdec, rfl⟩
    exact exists_row_of_decode hdec
  · rintro ⟨r, hr, rfl, hsel⟩
    exact decode_of_selects hr hsel

/-- Settles O4: in each group the selectors listed (and the values excluded, which `simp` takes from the context) lead past
every case of the group's decoder. -/
theorem unusedSelectorsSelectNothing : Obligations.UnusedSelectorsSelectNothing := by
  unfold Obligations.UnusedSelectorsSelectNothing
  intro w
  refine ⟨fun hop hsel i => ?_, fun hop hsel i => ?_, fun hop hsel i => ?_, fun hop hsel i => ?_, fun hop hsel i => ?_,
    fun hop hsel i => ?_⟩
  · rw [decode_of_op hop, decodeOp]
    rcases hsel with ⟨h7, h7'⟩ | ⟨h7, h3, h3'⟩
    · simp [h7, h7']
    · simp [h7, h3, h3']
  · rw [decode_of_opImm hop, decodeOpImm]
    rcases hsel with ⟨h3, h7⟩ | ⟨h3, h7, h7'⟩
    · simp [h3]
    · simp [h3]
  · rw [decode_of_load hop, decodeLoad]
    rcases hsel with h3 | h3 | h3 <;> simp [h3]
  · rw [decode_of_store hop, decodeStore]
    rcases hsel with h3 | h3 | h3 | h3 | h3 <;> simp [h3]
  · rw [decode_of_branch hop, decodeBranch]
    rcases hsel with h3 | h3 <;> simp [h3]
  · rw [decode_of_jalr hop, decodeJalr]
    split
    · next h3 => exact absurd h3 hsel
    · exact nofun

end Sys2Proof

namespace Sys2Proof.Machine

/-- A fetched word that decodes to nothing faults, whatever name its rejection has (R91, R93). -/
theorem step_illegal {s : State} {w : Word} (hend : s.pc ≠ s.endPc) (halign : s.pc.toNat % 4 = 0) (hfetch : fetch s = .ok w)
    (hdec : ∀ i, decode w ≠ .ok i) : step s = .fault (.illegalInstruction s.pc w) := by
  have hlow : s.pc.extractLsb' 0 2 = 0b00#2 := (lowBits_eq_zero_iff s.pc).2 halign
  cases hd : decode w with
  | ok i => exact absurd hd (hdec i)
  | error e => simp [step, hend, hlow, hfetch, hd, raise]

/-- Settles O5. -/
theorem wordsNotEndingIn11SelectNothing : Obligations.WordsNotEndingIn11SelectNothing := by
  unfold Obligations.WordsNotEndingIn11SelectNothing
  intro w h
  have hrows := and_mask_ne_pattern_of_lowBits h
  have hdec : ∀ i, decode w ≠ .ok i := fun i => decode_ne_ok_of_no_row hrows
  exact ⟨hrows, hdec, fun s hend halign hfetch => step_illegal hend halign hfetch hdec⟩

/-- Settles O6. -/
theorem unmatchedWordRaisesIllegalInstruction : Obligations.UnmatchedWordRaisesIllegalInstruction := by
  unfold Obligations.UnmatchedWordRaisesIllegalInstruction
  refine ⟨fun s w hend halign hfetch hrows => ?_, by decide⟩
  exact step_illegal hend halign hfetch fun i => decode_ne_ok_of_no_row hrows

end Sys2Proof.Machine
end

section
/-! The immediates bit by bit (spec/30_encoding.md R79 to R84). -/

namespace Sys2Proof.Machine

/-- Above its own bits an extended immediate has copies of its highest bit (R10). -/
theorem getLsbD_signExtend_word {n : Nat} (v : BitVec (n + 1)) {k : Nat} (hk : k < 32) :
    (v.signExtend 32).getLsbD k = if k < n then v.getLsbD k else v.getLsbD n := by
  rw [BitVec.getLsbD_signExtend, decide_eq_true hk, Bool.true_and, BitVec.msb_eq_getLsbD_last, Nat.add_sub_cancel]
  grind

section
variable (w : Word) (k : Nat)

theorem getLsbD_immIField : (immIField w).getLsbD k = if k < 12 then w.getLsbD (k + 20) else false := by
  rw [immIField, BitVec.getLsbD_extractLsb', Nat.add_comm]
  by_cases h : k < 12 <;> simp [h]

theorem getLsbD_immSField : (immSField w).getLsbD k
    = if k < 5 then w.getLsbD (k + 7) else if k < 12 then w.getLsbD (k + 20) else false := by
  show BitVec.getLsbD (w := 7 + 5) (_ ++ _) k = _
  simp only [BitVec.getLsbD_append, BitVec.getLsbD_extractLsb']
  grind

theorem getLsbD_immUField : (immUField w).getLsbD k = if k < 20 then w.getLsbD (k + 12) else false := by
  rw [immUField, BitVec.getLsbD_extractLsb', Nat.add_comm]
  by_cases h : k < 20 <;> simp [h]

theorem toNat_shamtField : (shamtField w).toNat = w.toNat / 2 ^ 20 % 32 := by
  rw [shamtField, BitVec.extractLsb'_toNat, Nat.shiftRight_eq_div_pow]

end

/-- Settles O7: bit k of an extended immediate is bit k or the highest bit of its field, whose bits are those of the word. -/
theorem immediatesBitByBit : Obligations.ImmediatesBitByBit := by
  unfold Obligations.ImmediatesBitByBit
  intro w k hk
  refine ⟨?_, ?_, ?_, ?_, ?_, toNat_shamtField w⟩
  · rw [signExt12, getLsbD_signExtend_word _ hk]
    simp only [getLsbD_immIField]
    grind
  · rw [signExt12, getLsbD_signExtend_word _ hk]
    simp only [getLsbD_immSField]
    grind
  · rw [signExt13, getLsbD_signExtend_word _ hk]
    simp only [getLsbD_immBField]
    grind
  · rw [upperImm, BitVec.getLsbD_append, getLsbD_immUField, BitVec.getLsbD_zero]
    grind
  · rw [signExt21, getLsbD_signExtend_word _ hk]
    simp only [getLsbD_immJField]
    grind

end Sys2Proof.Machine
end

section
/-! The values that the comparison instructions write and the split of a 32-bit constant (spec/40_reg_reg.md R121 (b),
spec/45_upper_imm.md R192), as equations on words. -/

namespace Sys2Proof.Machine

theorem setLessSigned_eq (a b : Word) : setLessSigned a b = if a.toInt < b.toInt then 1#32 else 0#32 := by
  simp [setLessSigned, boolWord, lessSigned, BitVec.slt]

theorem setLessUnsigned_eq (a b : Word) : setLessUnsigned a b = if a.toNat < b.toNat then 1#32 else 0#32 := by
  simp [setLessUnsigned, boolWord, lessUnsigned, BitVec.ult]

theorem toNat_lt_one_iff (a : Word) : a.toNat < 1 ↔ a = 0#32 := by
  rw [Nat.lt_one_iff, ← BitVec.toNat_inj, BitVec.toNat_zero]

theorem toNat_pos_iff (a : Word) : 0 < a.toNat ↔ a ≠ 0#32 := by
  rw [Nat.pos_iff_ne_zero, Ne, Ne, ← BitVec.toNat_inj, BitVec.toNat_zero]

/-! ### The two parts of a constant -/

/-- The low part is the number itself modulo 2^12, in the signed range. -/
theorem toInt_lo12 (c : Word) : (lo12 c).toInt = c.toInt.bmod (2 ^ 12) := by
  rw [lo12, BitVec.toInt_extractLsb', Nat.shiftRight_zero, BitVec.toInt_eq_toNat_bmod, Int.bmod_bmod_of_dvd (by decide)]

/-- A constant in the range of a 12-bit immediate is its own low part (R97). -/
theorem signExt12_lo12_of_range {c : Word} (h : -2048 ≤ c.toInt ∧ c.toInt ≤ 2047) : signExt12 (lo12 c) = c := by
  refine BitVec.eq_of_toInt_eq ?_
  rw [signExt12, BitVec.toInt_signExtend_of_le (by decide), toInt_lo12]
  exact Int.bmod_eq_of_le (by omega) (by omega)

/-- The sign-extended low part agrees with the constant in the twelve low bits. -/
theorem toNat_signExt12_lo12_mod (c : Word) : (signExt12 (lo12 c)).toNat % 2 ^ 12 = c.toNat % 2 ^ 12 := by
  have hbits : (signExt12 (lo12 c)).setWidth 12 = c.setWidth 12 := by
    refine BitVec.eq_of_getLsbD_eq fun k hk => ?_
    rw [BitVec.getLsbD_setWidth, signExt12, getLsbD_signExtend_word _ (by omega), lo12]
    simp only [BitVec.getLsbD_extractLsb', BitVec.getLsbD_setWidth]
    grind
  simpa using congrArg BitVec.toNat hbits

/-- Twenty high bits above twelve zeros are a multiple of 2^12. -/
theorem upperImm_extract {d : Word} (h : d.toNat % 2 ^ 12 = 0) : upperImm (d.extractLsb' 12 20) = d := by
  refine BitVec.eq_of_toNat_eq ?_
  rw [upperImm, BitVec.toNat_append, BitVec.toNat_zero, Nat.or_zero, Nat.shiftLeft_eq, BitVec.extractLsb'_toNat,
    Nat.shiftRight_eq_div_pow]
  omega

/-- What is left of the constant after its low part is taken off has twelve zeros at the bottom (R192). -/
theorem upperImm_hi20 (c : Word) : upperImm (hi20 c) = c - signExt12 (lo12 c) := by
  have hlow := toNat_signExt12_lo12_mod c
  refine upperImm_extract ?_
  rw [BitVec.toNat_sub]
  omega

theorem upperImm_hi20_add (c : Word) : upperImm (hi20 c) + signExt12 (lo12 c) = c := by
  rw [upperImm_hi20, BitVec.sub_add_cancel]

end Sys2Proof.Machine
end

section
/-! The pseudo-instructions (spec/30_encoding.md R97) and the no-operation (R94): each expands to instructions of one family,
and what the family does is said once for all of them. -/

namespace Sys2Proof.Machine
open Sys2Proof.Claims

/-! ### Pseudo-instructions that write a register -/

/-- Two instructions that end by writing the same rd, the second from the state the first leaves. -/
theorem seqWritesOnlyRd_of_retire_retire {i j : Instr} {s : State} {rd : RegIdx} {u v : Word}
    (hi : exec i s = retire s rd u)
    (hj : exec j ((s.setReg rd u).setPc s.nextPc) = retire ((s.setReg rd u).setPc s.nextPc) rd v) :
    seqWritesOnlyRd [i, j] s rd v := by
  refine ⟨(((s.setReg rd u).setPc s.nextPc).setReg rd v).setPc (s.nextPc + 4#32), ?_, fun r => ?_, ?_, fun a => rfl, rfl, rfl⟩
  · rw [execSeq, hi, retire_eq]
    dsimp only
    rw [execSeq, hj, retire_eq]
    rfl
  · rw [State.reg_setPc, State.reg_setReg, State.reg_setPc, State.reg_setReg]
    split <;> rfl
  · simp [State.nextPc, BitVec.toNat_add]

section
variable (s : State) (rd : RegIdx)

/-- ADDI from x0 leaves the extended immediate. -/
theorem exec_addi_zero (imm : BitVec 12) : exec (.addi rd 0 imm) s = retire s rd (signExt12 imm) :=
  congrArg (retire s rd) (BitVec.zero_add _)

theorem exec_lui (imm : BitVec 20) : exec (.lui rd imm) s = retire s rd (upperImm imm) := rfl

theorem exec_addi (rs1 : RegIdx) (imm : BitVec 12) :
    exec (.addi rd rs1 imm) s = retire s rd (s.reg rs1 + signExt12 imm) := rfl

/-- The three expansions of `li`: ADDI in its range, LUI where the low part is zero, both otherwise (R97, R192). -/
theorem seqWritesOnlyRd_li {rd : RegIdx} (hrd : rd ≠ 0#5) (c : Word) :
    ∃ is, Pseudo.expand s.pc (.li rd c) = some is ∧ seqWritesOnlyRd is s rd c := by
  rw [Pseudo.expand]
  split
  · next hrange =>
    refine ⟨_, rfl, seqWritesOnlyRd_of_retire ?_⟩
    rw [exec_addi_zero, signExt12_lo12_of_range hrange]
  · split
    · next hlo =>
      have hc : upperImm (hi20 c) = c := by
        have hsum := upperImm_hi20_add c
        rwa [hlo, show signExt12 0#12 = 0#32 from rfl, BitVec.add_zero] at hsum
      refine ⟨_, rfl, seqWritesOnlyRd_of_retire ?_⟩
      rw [exec_lui, hc]
    · refine ⟨_, rfl, seqWritesOnlyRd_of_retire_retire (exec_lui s rd (hi20 c)) ?_⟩
      rw [exec_addi, State.reg_setPc, State.reg_setReg, if_pos ⟨rfl, hrd⟩, upperImm_hi20_add]

end

/-- Settles O40: the value of each single instruction, with x0 read as 0 or a constant immediate, is the value stated. -/
theorem registerPseudoInstructions : Obligations.RegisterPseudoInstructions := by
  unfold Obligations.RegisterPseudoInstructions
  intro s rd rs c
  refine ⟨fun hrd => seqWritesOnlyRd_li s hrd c, ⟨_, rfl, ?mv⟩, ⟨_, rfl, ?not⟩, ⟨_, rfl, ?neg⟩, ⟨_, rfl, ?seqz⟩,
    ⟨_, rfl, ?snez⟩, ⟨_, rfl, ?sltz⟩, ⟨_, rfl, ?sgtz⟩⟩ <;>
    refine seqWritesOnlyRd_of_retire (congrArg (retire s rd) ?_)
  case mv => exact BitVec.add_zero _
  case not => exact BitVec.xor_allOnes
  case neg => exact BitVec.zero_sub _
  case seqz => exact (setLessUnsigned_eq _ _).trans (if_congr (toNat_lt_one_iff _) rfl rfl)
  case snez => exact (setLessUnsigned_eq _ _).trans (if_congr (toNat_pos_iff _) rfl rfl)
  case sltz => exact setLessSigned_eq _ _
  case sgtz => exact setLessSigned_eq _ _

/-! ### Pseudo-instructions that branch -/

theorem execBranch_of_taken {cond : Word → Word → Bool} {rs1 rs2 : RegIdx} {imm : BitVec 13} {s : State}
    (hcond : cond (s.reg rs1) (s.reg rs2) = true) (halign : (s.pc + sx imm).toNat % 4 = 0) :
    execBranch cond rs1 rs2 imm s = .next (s.setPc (s.pc + sx imm)) := by
  rw [execBranch, if_pos hcond, branchTarget_eq, jumpTo_of_aligned ((lowBits_eq_zero_iff _).2 halign)]

theorem execBranch_of_not_taken {cond : Word → Word → Bool} {rs1 rs2 : RegIdx} {s : State} (imm : BitVec 13)
    (hcond : ¬ cond (s.reg rs1) (s.reg rs2) = true) : execBranch cond rs1 rs2 imm s = .next (s.setPc s.nextPc) := by
  rw [execBranch, if_neg hcond]

theorem movesOnlyPc_of_setPc {i : Instr} {s : State} {target : Word} (h : exec i s = .next (s.setPc target)) :
    movesOnlyPc i s target :=
  ⟨_, h, rfl, fun _ => rfl, fun _ => rfl, rfl, rfl⟩

/-- A label in reach is the offset it was made from. -/
theorem immBOf_distanceTo (pc : Word) {imm : BitVec 13} (h : imm.getLsbD 0 = false) :
    immBOf (distanceTo pc (pc + sx imm)) = some imm := by
  rw [show sx imm = imm.signExtend 32 from rfl, distanceTo_branch, immBOf_toInt imm h]

/-- A pseudo-instruction that stands for one branch, on a condition that says `P` of its two registers. -/
theorem branchPseudo_of_execBranch {s : State} {imm : BitVec 13} {p : Word → Pseudo} {P : Prop} {mk : BitVec 13 → Instr}
    {cond : Word → Word → Bool} {rs1 rs2 : RegIdx} (heven : imm.getLsbD 0 = false)
    (halign : (s.pc + sx imm).toNat % 4 = 0)
    (hexpand : ∀ a, Pseudo.expand s.pc (p a) = (immBOf (distanceTo s.pc a)).map fun off => [mk off])
    (hwf : (mk imm).wellFormed = branchOffsetOk imm) (hexec : exec (mk imm) s = execBranch cond rs1 rs2 imm s)
    (hcond : cond (s.reg rs1) (s.reg rs2) = true ↔ P) : branchPseudo s imm p P := by
  refine ⟨mk imm, ?_, ?_, fun hP => ?_, fun hP => ?_⟩
  · rw [hexpand, immBOf_distanceTo s.pc heven, Option.map_some]
  · rw [hwf, branchOffsetOk, heven, Bool.not_false]
  · exact movesOnlyPc_of_setPc (hexec.trans (execBranch_of_taken (hcond.2 hP) halign))
  · exact movesOnlyPc_of_setPc (hexec.trans (execBranch_of_not_taken imm (hP ∘ hcond.1)))

/-- Settles O41: each expands to one branch, with its operands swapped or one of them x0. -/
theorem branchPseudoInstructions : Obligations.BranchPseudoInstructions := by
  unfold Obligations.BranchPseudoInstructions
  intro s rs rt imm heven halign
  refine ⟨?beqz, ?bnez, ?blez, ?bgez, ?bltz, ?bgtz, ?bgt, ?ble, ?bgtu, ?bleu⟩ <;>
    refine branchPseudo_of_execBranch heven halign (fun _ => rfl) rfl rfl ?_
  case beqz => exact condEq_iff _ (s.reg 0)
  case bnez => exact condNe_iff _ (s.reg 0)
  case blez => exact condGe_iff (s.reg 0) _
  case bgez => exact condGe_iff _ (s.reg 0)
  case bltz => exact condLt_iff _ (s.reg 0)
  case bgtz => exact condLt_iff (s.reg 0) _
  case bgt => exact condLt_iff _ _
  case ble => exact condGe_iff _ _
  case bgtu => exact condLtu_iff _ _
  case bleu => exact condGeu_iff _ _

/-! ### Pseudo-instructions that jump -/

theorem immJOf_distanceTo (pc : Word) {imm : BitVec 21} (h : imm.getLsbD 0 = false) :
    immJOf (distanceTo pc (pc + sx imm)) = some imm := by
  rw [show sx imm = imm.signExtend 32 from rfl, distanceTo_jump, immJOf_toInt imm h]

theorem execJump_of_aligned (rd : RegIdx) {target : Word} (s : State) (halign : target.toNat % 4 = 0) :
    execJump rd target s = .next ((s.setReg rd s.nextPc).setPc target) := by
  rw [execJump, jumpTo_of_aligned ((lowBits_eq_zero_iff _).2 halign)]

/-- A pseudo-instruction that stands for one jump to a multiple of 4. -/
theorem jumpPseudo_of_execJump {s : State} {p : Pseudo} {i : Instr} {rd : RegIdx} {target : Word}
    (halign : target.toNat % 4 = 0) (hexpand : Pseudo.expand s.pc p = some [i]) (hwf : i.wellFormed = true)
    (hexec : exec i s = execJump rd target s) : jumpPseudo s p rd target := by
  refine ⟨i, _, hexpand, hwf, hexec.trans (execJump_of_aligned rd s halign), rfl, fun r => ?_, fun a => rfl, rfl, rfl⟩
  rw [State.reg_setPc, State.reg_setReg, State.nextPc]

/-- With offset 0 JALR goes to the address in the register where that is even (R201). -/
theorem jalrTarget_zero {s : State} {rs1 : RegIdx} (h : (s.reg rs1).toNat % 4 = 0) : jalrTarget s rs1 0 = s.reg rs1 := by
  refine BitVec.eq_of_toNat_eq ?_
  rw [toNat_jalrTarget, show sx (0 : BitVec 12) = 0#32 from rfl, BitVec.add_zero]
  omega

theorem jumpPseudo_of_jal {s : State} {imm : BitVec 21} {p : Pseudo} {rd : RegIdx} (heven : imm.getLsbD 0 = false)
    (halign : (s.pc + sx imm).toNat % 4 = 0)
    (hexpand : Pseudo.expand s.pc p = (immJOf (distanceTo s.pc (s.pc + sx imm))).map fun off => [.jal rd off]) :
    jumpPseudo s p rd (s.pc + sx imm) := by
  refine jumpPseudo_of_execJump (i := .jal rd imm) halign ?_ ?_ rfl
  · rw [hexpand, immJOf_distanceTo s.pc heven, Option.map_some]
  · rw [Instr.wellFormed, jumpOffsetOk, heven, Bool.not_false]

theorem jumpPseudo_of_jalr {s : State} {p : Pseudo} {rd rs1 : RegIdx} (halign : (s.reg rs1).toNat % 4 = 0)
    (hexpand : Pseudo.expand s.pc p = some [.jalr rd rs1 0]) : jumpPseudo s p rd (s.reg rs1) := by
  refine jumpPseudo_of_execJump halign hexpand rfl ?_
  exact congrArg (execJump rd · s) (jalrTarget_zero halign)

/-- Settles O42: `j` and `jal` are JAL, the others JALR with offset 0. -/
theorem jumpPseudoInstructions : Obligations.JumpPseudoInstructions := by
  unfold Obligations.JumpPseudoInstructions
  intro s
  refine ⟨fun imm heven halign => ⟨?_, ?_⟩, fun rs halign => ⟨?_, ?_⟩, fun halign => ?_⟩
  · exact jumpPseudo_of_jal heven halign rfl
  · exact jumpPseudo_of_jal heven halign rfl
  · exact jumpPseudo_of_jalr halign rfl
  · exact jumpPseudo_of_jalr halign rfl
  · exact jumpPseudo_of_jalr halign rfl

/-! ### Destination x0 -/

theorem retire_zero (s : State) (v : Word) : retire s 0#5 v = .next (s.setPc s.nextPc) := by
  rw [retire_eq, State.setReg_zero]

/-- Only the destination may change, and x0 never does. -/
theorem CompletesIn.sameRegisters_of_dest_zero {i : Instr} {s t : State} (h : CompletesIn i s t)
    (hdest : i.dest = some 0#5) : sameRegisters s t := by
  intro r
  by_cases hr : r = 0#5
  · rw [hr, State.reg_zero, State.reg_zero]
  · refine h.reg_eq fun hd => hr ?_
    exact Option.some.inj (hd.symm.trans hdest)

/-- Settles O43: ADDI x0, x0, 0 retires into x0. -/
theorem destinationZeroChangesNoRegister : Obligations.DestinationZeroChangesNoRegister := by
  unfold Obligations.DestinationZeroChangesNoRegister
  refine ⟨by decide, fun pc => rfl, fun s => movesOnlyPc_of_setPc ?_, fun i s t hdest h => ?_⟩
  · exact (exec_addi_zero s 0 0).trans (retire_zero s _)
  · exact (exec_next h).sameRegisters_of_dest_zero hdest

end Sys2Proof.Machine
end

section
/-! The register-register instructions (spec/40_reg_reg.md R110 to R121): what is common to the ten is proved once, and each of
them is then an equation about the value it writes. -/

namespace Sys2Proof.Machine
open Sys2Proof.Claims

/-! ### What the family shares (R98, R120) -/

/-- An instruction that ends by writing rd does nothing else but move the pc. -/
theorem writesOnlyRd_of_retire {i : Instr} {s : State} {rd : RegIdx} {v : Word} {P : Word → Prop}
    (h : exec i s = retire s rd v) (hv : P v) : writesOnlyRd i s rd P := by
  refine ⟨v, (s.setReg rd v).setPc s.nextPc, h, hv, fun r => ?_, pcAdvanced_setPc_nextPc s _, fun a => rfl, rfl, rfl⟩
  exact State.reg_setReg s rd r v

/-- The word of an instruction stands for it because decoding undoes encoding. -/
theorem spelled_of_encode {pc : Word} {m : Mnemonic} {ops : List Operand} {w : Word} {i : Instr}
    (hasm : assemble pc m ops = some i) (hwf : i.wellFormed = true) (hword : encode i = w) : spelled pc m ops w i :=
  ⟨hasm, hword ▸ decode_encode hwf⟩

/-- An instruction that computes `f` and whose values have the property. That its operands, its word and its meaning are
those of the family is read off the definitions, the same way for each of the ten. -/
theorem regRegOp_of_execRegReg {m : Mnemonic} {funct7 : BitVec 7} {funct3 : BitVec 3} {mk : RegIdx → RegIdx → RegIdx → Instr}
    {P : Word → Word → Word → Prop} {f : Word → Word → Word} (hvalue : ∀ a b, P a b (f a b))
    (hasm : ∀ pc, assemble pc m = asmR mk := by intros; rfl)
    (hwf : ∀ rd rs1 rs2, (mk rd rs1 rs2).wellFormed = true := by intros; rfl)
    (hword : ∀ rd rs1 rs2, encode (mk rd rs1 rs2) = packR funct7 rs2 rs1 funct3 rd 0b0110011#7 := by intros; rfl)
    (hexec : ∀ rd rs1 rs2 s, exec (mk rd rs1 rs2) s = execRegReg f rd rs1 rs2 s := by intros; rfl) :
    regRegOp m funct7 funct3 mk P := by
  intro s rd rs1 rs2
  refine ⟨spelled_of_encode ?_ (hwf rd rs1 rs2) (hword rd rs1 rs2), ?_⟩
  · rw [hasm, asmR]
  · exact writesOnlyRd_of_retire (hexec rd rs1 rs2 s) (hvalue _ _)

/-! ### The values (R11, R121) -/

/-- The difference with the first number raised by 2^32, so that it is a natural number (R111). -/
theorem toNat_sub_word (a b : Word) : (a - b).toNat = (2 ^ 32 + a.toNat - b.toNat) % 2 ^ 32 := by
  rw [BitVec.toNat_sub]
  omega

theorem toNat_setLessSigned (a b : Word) : (setLessSigned a b).toNat = if a.toInt < b.toInt then 1 else 0 := by
  rw [setLessSigned_eq, apply_ite BitVec.toNat]
  rfl

theorem toNat_setLessUnsigned (a b : Word) : (setLessUnsigned a b).toNat = if a.toNat < b.toNat then 1 else 0 := by
  rw [setLessUnsigned_eq, apply_ite BitVec.toNat]
  rfl

theorem shiftAmount_eq (v : Word) : shiftAmount v = v.toNat % 32 := by
  rw [shiftAmount, BitVec.extractLsb'_toNat, Nat.shiftRight_zero]

theorem toNat_shiftLeft (v : Word) (n : Nat) : (shiftLeft v n).toNat = v.toNat * 2 ^ n % 2 ^ 32 := by
  rw [shiftLeft, BitVec.toNat_shiftLeft, Nat.shiftLeft_eq]

theorem toNat_shiftRightLogical (v : Word) (n : Nat) : (shiftRightLogical v n).toNat = v.toNat / 2 ^ n := by
  rw [shiftRightLogical, BitVec.toNat_ushiftRight, Nat.shiftRight_eq_div_pow]

/-- `Int` division by a positive number is the floor of the quotient (R117). -/
theorem toInt_shiftRightArith (v : Word) (n : Nat) : (shiftRightArith v n).toInt = v.toInt / 2 ^ n := by
  rw [shiftRightArith, BitVec.toInt_sshiftRight, Int.shiftRight_eq_div_pow]
  rfl

/-! ### The instructions -/

/-- Settles O15: addition and subtraction of words are those of numbers modulo 2^32. -/
theorem addAndSubWrap : Obligations.AddAndSubWrap := by
  unfold Obligations.AddAndSubWrap
  constructor
  case left => exact regRegOp_of_execRegReg BitVec.toNat_add
  case right => exact regRegOp_of_execRegReg toNat_sub_word

/-- Settles O16: the two orders on words are those of their signed and of their unsigned numbers. -/
theorem setLessThanSignedAndUnsigned : Obligations.SetLessThanSignedAndUnsigned := by
  unfold Obligations.SetLessThanSignedAndUnsigned
  constructor
  case left => exact regRegOp_of_execRegReg toNat_setLessSigned
  case right => exact regRegOp_of_execRegReg toNat_setLessUnsigned

/-- Settles O17: the amount is the second source modulo 32, and each shift multiplies or divides by that power of two. -/
theorem registerShiftsUseLowFiveBits : Obligations.RegisterShiftsUseLowFiveBits := by
  unfold Obligations.RegisterShiftsUseLowFiveBits
  refine ⟨?sll, ?srl, ?sra⟩
  case sll =>
    refine regRegOp_of_execRegReg (f := fun a b => shiftLeft a (shiftAmount b)) fun a b => ?_
    rw [toNat_shiftLeft, shiftAmount_eq]
  case srl =>
    refine regRegOp_of_execRegReg (f := fun a b => shiftRightLogical a (shiftAmount b)) fun a b => ?_
    rw [toNat_shiftRightLogical, shiftAmount_eq]
  case sra =>
    refine regRegOp_of_execRegReg (f := fun a b => shiftRightArith a (shiftAmount b)) fun a b => ?_
    rw [toInt_shiftRightArith, shiftAmount_eq]

/-- Settles O18: a bit of the result is the operation on the two bits of the sources. -/
theorem registerLogicIsBitwise : Obligations.RegisterLogicIsBitwise := by
  unfold Obligations.RegisterLogicIsBitwise
  refine ⟨?xor, ?or, ?and⟩
  case xor => exact regRegOp_of_execRegReg fun a b k _ => BitVec.getLsbD_xor (x := a) (y := b)
  case or => exact regRegOp_of_execRegReg fun a b k _ => BitVec.getLsbD_or (x := a) (y := b)
  case and => exact regRegOp_of_execRegReg fun a b k _ => BitVec.getLsbD_and (x := a) (y := b)

end Sys2Proof.Machine
end

section
/-! The register-immediate instructions (spec/41_reg_imm.md R130 to R141): as in the register-register family, what is common is
proved once for each of the two forms, and each instruction is then an equation about the value it writes. -/

namespace Sys2Proof.Machine
open Sys2Proof.Claims

/-! ### What the two forms share (R98, R140, R141) -/

/-- An instruction that computes `f` from a register and the extended immediate, and whose values have the property. -/
theorem regImmOp_of_execRegImm {m : Mnemonic} {funct3 : BitVec 3} {mk : RegIdx → RegIdx → BitVec 12 → Instr}
    {P : Word → BitVec 12 → Word → Prop} {f : Word → Word → Word} (hvalue : ∀ a imm, P a imm (f a (signExt12 imm)))
    (hasm : ∀ pc, assemble pc m = asmI mk := by intros; rfl)
    (hwf : ∀ rd rs1 imm, (mk rd rs1 imm).wellFormed = true := by intros; rfl)
    (hword : ∀ rd rs1 imm, encode (mk rd rs1 imm) = packI imm rs1 funct3 rd 0b0010011#7 := by intros; rfl)
    (hexec : ∀ rd rs1 imm s, exec (mk rd rs1 imm) s = execRegImm f rd rs1 imm s := by intros; rfl) :
    regImmOp m funct3 mk P := by
  intro s rd rs1 imm
  refine ⟨spelled_of_encode ?_ (hwf rd rs1 imm) (hword rd rs1 imm), ?_⟩
  · rw [hasm, asmI, imm12Of_toInt, Option.map_some]
  · exact writesOnlyRd_of_retire (hexec rd rs1 imm s) (hvalue _ _)

/-- An instruction that shifts a register by the amount in its word: the word is that of the R form with the amount in the
place of rs2. -/
theorem shiftImmOp_of_execShiftImm {m : Mnemonic} {funct7 : BitVec 7} {funct3 : BitVec 3}
    {mk : RegIdx → RegIdx → BitVec 5 → Instr} {P : Word → Nat → Word → Prop} {f : Word → Nat → Word}
    (hvalue : ∀ a n, P a n (f a n))
    (hasm : ∀ pc, assemble pc m = asmShift mk := by intros; rfl)
    (hwf : ∀ rd rs1 shamt, (mk rd rs1 shamt).wellFormed = true := by intros; rfl)
    (hword : ∀ rd rs1 shamt, encode (mk rd rs1 shamt) = packR funct7 shamt rs1 funct3 rd 0b0010011#7 := by intros; rfl)
    (hexec : ∀ rd rs1 shamt s, exec (mk rd rs1 shamt) s = execShiftImm f rd rs1 shamt s := by intros; rfl) :
    shiftImmOp m funct7 funct3 mk P := by
  intro s rd rs1 shamt
  refine ⟨spelled_of_encode ?_ (hwf rd rs1 shamt) (hword rd rs1 shamt), ?_⟩
  · rw [hasm, asmShift, shamtOf_toNat, Option.map_some]
  · exact writesOnlyRd_of_retire (hexec rd rs1 shamt s) (hvalue _ _)

/-! ### The extended immediate (R10) -/

theorem toInt_signExt12 (imm : BitVec 12) : (signExt12 imm).toInt = imm.toInt :=
  BitVec.toInt_signExtend_of_le (by decide)

theorem getLsbD_signExt12 (imm : BitVec 12) {k : Nat} (hk : k < 32) :
    (signExt12 imm).getLsbD k = imm.getLsbD (min k 11) := by
  rw [signExt12, getLsbD_signExtend_word imm hk]
  split
  next h => rw [min_eq_left h.le]
  next h => rw [min_eq_right (not_lt.mp h)]

/-! ### The values (R11, R121) -/

/-- Adding the extended immediate is adding its signed number: the two differ by a multiple of 2^32 (R130). -/
theorem toNat_add_signExt12 (a : Word) (imm : BitVec 12) :
    ((a + signExt12 imm).toNat : Int) = ((a.toNat : Int) + imm.toInt) % 2 ^ 32 := by
  have himm : ((signExt12 imm).toNat : Int) % 2 ^ 32 = imm.toInt % 2 ^ 32 := by
    rw [← toInt_signExt12, BitVec.toInt_eq_toNat_bmod]
    exact (Int.bmod_emod ..).symm
  rw [BitVec.toNat_add, Int.natCast_emod, Int.natCast_add]
  exact Int.emod_add_cancel_left.mpr himm

/-- Where there is no bit k + n, a copy of bit 31 has entered (R138). -/
theorem getLsbD_shiftRightArith (v : Word) (n : Nat) {k : Nat} (hk : k < 32) :
    (shiftRightArith v n).getLsbD k = if k + n < 32 then v.getLsbD (k + n) else v.getLsbD 31 := by
  rw [shiftRightArith, BitVec.getLsbD_sshiftRight, BitVec.msb_eq_getLsbD_last, Nat.add_comm]
  simp [Nat.not_le.mpr hk]

/-! ### The instructions -/

/-- Settles O19: the sum of a register and the extended immediate is that of their numbers modulo 2^32. -/
theorem addiAddsSignedImmediate : Obligations.AddiAddsSignedImmediate := by
  unfold Obligations.AddiAddsSignedImmediate
  exact regImmOp_of_execRegImm toNat_add_signExt12

/-- Settles O20: extension keeps the signed number of the immediate, and the unsigned order is on the extended word. -/
theorem setLessThanImmediate : Obligations.SetLessThanImmediate := by
  unfold Obligations.SetLessThanImmediate
  constructor
  case left =>
    refine regImmOp_of_execRegImm (f := setLessSigned) fun a imm => ?_
    rw [toNat_setLessSigned, toInt_signExt12]
  case right => exact regImmOp_of_execRegImm fun a imm => toNat_setLessUnsigned a (signExt12 imm)

/-- Settles O21: bit k of the extended immediate is bit k of the immediate up to bit 11, and bit 11 above. -/
theorem logicImmediateIsBitwise : Obligations.LogicImmediateIsBitwise := by
  unfold Obligations.LogicImmediateIsBitwise
  refine ⟨?xor, ?or, ?and⟩
  case xor =>
    refine regImmOp_of_execRegImm (f := fun a b => a ^^^ b) fun a imm k hk => ?_
    rw [BitVec.getLsbD_xor, getLsbD_signExt12 imm hk]
  case or =>
    refine regImmOp_of_execRegImm (f := fun a b => a ||| b) fun a imm k hk => ?_
    rw [BitVec.getLsbD_or, getLsbD_signExt12 imm hk]
  case and =>
    refine regImmOp_of_execRegImm (f := fun a b => a &&& b) fun a imm k hk => ?_
    rw [BitVec.getLsbD_and, getLsbD_signExt12 imm hk]

/-- Settles O22: the amount is the field itself, so each shift is the operation on words by that amount. -/
theorem shiftImmediateByAmount : Obligations.ShiftImmediateByAmount := by
  unfold Obligations.ShiftImmediateByAmount
  refine ⟨?slli, ?srli, ?srai⟩
  case slli => exact shiftImmOp_of_execShiftImm toNat_shiftLeft
  case srli => exact shiftImmOp_of_execShiftImm toNat_shiftRightLogical
  case srai => exact shiftImmOp_of_execShiftImm fun a n k hk => getLsbD_shiftRightArith a n hk

end Sys2Proof.Machine
end

section
/-! The loads (spec/42_loads.md R150 to R157): what the five share is proved once for each of the two shapes of statement, and
each load is then an equation between the value it writes and the bytes it reads. -/

namespace Sys2Proof.Machine
open Sys2Proof.Claims

/-! ### What the family shares (R98, R150, R156) -/

/-- The effective address is a sum modulo 2^32 (R51, D7). -/
theorem toNat_effAddr (s : State) (rs1 : RegIdx) (imm : BitVec 12) :
    (effAddr s rs1 imm).toNat = ((s.reg rs1).toNat + (sx imm).toNat) % 2 ^ 32 :=
  BitVec.toNat_add (s.reg rs1) (sx imm)

section
variable {sz : AccessSize} {ext : BitVec sz.bits → Word} {rd rs1 : RegIdx} {imm : BitVec 12} {s : State}

theorem execLoad_of_misaligned (h : (effAddr s rs1 imm).toNat % sz.bytes ≠ 0) :
    execLoad sz ext rd rs1 imm s = .fault (.loadAddrMisaligned s.pc (effAddr s rs1 imm)) := by
  rw [execLoad, memRead_of_misaligned h]
  rfl

theorem execLoad_of_absent (halign : (effAddr s rs1 imm).toNat % sz.bytes = 0)
    (hread : s.readable (effAddr s rs1 imm).toNat sz.bytes = false) :
    execLoad sz ext rd rs1 imm s = .fault (.loadAccessFault s.pc (effAddr s rs1 imm)) := by
  rw [execLoad, memRead_of_absent halign hread]
  rfl

end

/-- A load of a width whose values, extended, have the property of the bytes they are read from. That its operands, its word
and its meaning are those of the family is read off the definitions, the same way for each of the five. -/
theorem loadOp_of_execLoad {m : Mnemonic} {funct3 : BitVec 3} {mk : RegIdx → RegIdx → BitVec 12 → Instr}
    {P : (Nat → Byte) → Word → Prop} (sz : AccessSize) {ext : BitVec sz.bits → Word}
    (hvalue : ∀ (mem : Memory) (a : Nat), P (fun k => mem.read (a + k)) (ext (mem.readSized a sz)))
    (hasm : ∀ pc, assemble pc m = asmLoad mk := by intros; rfl)
    (hwf : ∀ rd rs1 imm, (mk rd rs1 imm).wellFormed = true := by intros; rfl)
    (hword : ∀ rd rs1 imm, encode (mk rd rs1 imm) = packI imm rs1 funct3 rd 0b0000011#7 := by intros; rfl)
    (hexec : ∀ rd rs1 imm s, exec (mk rd rs1 imm) s = execLoad sz ext rd rs1 imm s := by intros; rfl) :
    loadOp m sz.bytes funct3 mk P := by
  intro s rd rs1 imm
  refine ⟨spelled_of_encode ?_ (hwf rd rs1 imm) (hword rd rs1 imm), toNat_effAddr s rs1 imm, fun halign hmem => ?_,
    fun halign habsent => ?_⟩
  · rw [hasm, asmLoad, imm12Of_toInt, Option.map_some]
  · have hload := execLoad_of_readable (ext := ext) (rd := rd) halign (State.readable_iff.2 hmem)
    exact writesOnlyRd_of_retire ((hexec rd rs1 imm s).trans hload) (hvalue s.mem _)
  · rw [hexec, execLoad_of_absent halign (State.readable_eq_false_iff.2 habsent)]

theorem loadMisaligned_of_execLoad {mk : RegIdx → RegIdx → BitVec 12 → Instr} (sz : AccessSize)
    {ext : BitVec sz.bits → Word}
    (hexec : ∀ rd rs1 imm s, exec (mk rd rs1 imm) s = execLoad sz ext rd rs1 imm s := by intros; rfl) :
    loadMisaligned sz.bytes mk := by
  intro s rd rs1 imm h
  rw [hexec, execLoad_of_misaligned h]

/-! ### The values (R10, R43) -/

theorem toNat_readSized_half (m : Memory) (a : Nat) : (m.readSized a .half).toNat = leHalf fun k => m.read (a + k) :=
  toNat_append_byte (m.read (a + 1)) (m.read a)

theorem toNat_readSized_word (m : Memory) (a : Nat) : (m.readSized a .word).toNat = leWord fun k => m.read (a + k) :=
  toNat_wordOfBytes fun k => m.read (a + k)

/-- From 2^15 on a halfword is negative as a signed number (R9). -/
theorem toInt_half (v : BitVec 16) : v.toInt = if v.toNat < 2 ^ 15 then (v.toNat : Int) else (v.toNat : Int) - 2 ^ 16 := by
  rw [BitVec.toInt_eq_toNat_cond]
  exact if_congr (by omega) rfl rfl

/-! ### The instructions -/

/-- Settles O23: either extension of a byte keeps its number, the signed or the unsigned one. -/
theorem loadByteExtends : Obligations.LoadByteExtends := by
  unfold Obligations.LoadByteExtends
  constructor
  case left => exact loadOp_of_execLoad .byte fun m a => BitVec.toInt_signExtend_of_le (by decide)
  case right => exact loadOp_of_execLoad .byte fun m a => BitVec.toNat_setWidth_of_le (by decide)

/-- Settles O24: either extension keeps the number of the halfword, which is that of its two bytes. -/
theorem loadHalfExtends : Obligations.LoadHalfExtends := by
  unfold Obligations.LoadHalfExtends
  refine ⟨?lh, ?lhu, loadMisaligned_of_execLoad .half, loadMisaligned_of_execLoad .half⟩
  case lh =>
    refine loadOp_of_execLoad .half (ext := BitVec.signExtend 32) fun m a => ?_
    rw [BitVec.toInt_signExtend_of_le (by decide), toInt_half, toNat_readSized_half]
  case lhu =>
    refine loadOp_of_execLoad .half (ext := BitVec.zeroExtend 32) fun m a => ?_
    rw [BitVec.toNat_setWidth_of_le (by decide), toNat_readSized_half]

/-- Settles O25: a word is written as it is read. -/
theorem loadWordLittleEndian : Obligations.LoadWordLittleEndian := by
  unfold Obligations.LoadWordLittleEndian
  exact ⟨loadOp_of_execLoad .word (ext := id) toNat_readSized_word, loadMisaligned_of_execLoad .word⟩

end Sys2Proof.Machine
end

section
/-! The stores (spec/43_stores.md R160 to R165): what the three share is proved once, for any width, for each of the two shapes
of statement; each store is then its width. -/

namespace Sys2Proof.Machine
open Sys2Proof.Claims

/-! ### What a store answers (R160, R164) -/

section
variable {sz : AccessSize} {rs1 rs2 : RegIdx} {imm : BitVec 12} {s : State}

theorem execStore_of_misaligned (h : (effAddr s rs1 imm).toNat % sz.bytes ≠ 0) :
    execStore sz rs1 rs2 imm s = .fault (.storeAddrMisaligned s.pc (effAddr s rs1 imm)) := by
  rw [execStore, memWrite_of_misaligned h]
  rfl

theorem execStore_of_denied (halign : (effAddr s rs1 imm).toNat % sz.bytes = 0)
    (hwrite : s.writable (effAddr s rs1 imm).toNat sz.bytes = false) :
    execStore sz rs1 rs2 imm s = .fault (.storeAccessFault s.pc (effAddr s rs1 imm)) := by
  rw [execStore, memWrite_of_absent halign hwrite]
  rfl

theorem execStore_of_writable (halign : (effAddr s rs1 imm).toNat % sz.bytes = 0)
    (hwrite : s.writable (effAddr s rs1 imm).toNat sz.bytes = true) :
    execStore sz rs1 rs2 imm s =
      .next ((s.setMem (s.mem.writeSized (effAddr s rs1 imm).toNat sz ((s.reg rs2).extractLsb' 0 sz.bits))).setPc s.nextPc) := by
  rw [execStore, memWrite_of_writable halign hwrite]

end

/-- The bytes a store writes are the low bytes of the register itself: what is cut off lies above them (R43, R160). -/
theorem read_writeSized_low (m : Memory) (a : Nat) (sz : AccessSize) (v : Word) {k : Nat} (hk : k < sz.bytes) :
    (m.writeSized a sz (v.extractLsb' 0 sz.bits)).read (a + k) = v.extractLsb' (8 * k) 8 := by
  have hbyte : 8 * k + 8 ≤ sz.bits := by rw [sz.bits_eq]; omega
  rw [m.read_writeSized_inside a _ hk, extractLsb'_extractLsb'_of_add_le v hbyte, Nat.zero_add]

/-! ### What the family shares (R98) -/

/-- A store of a width: it completes, changing the stored bytes and the pc alone, or the access is denied. That its operands,
its word and its meaning are those of the family is read off the definitions, the same way for each of the three. -/
theorem storeOp_of_execStore {m : Mnemonic} {funct3 : BitVec 3} {mk : RegIdx → RegIdx → BitVec 12 → Instr} (sz : AccessSize)
    (hasm : ∀ pc, assemble pc m = asmStore mk := by intros; rfl)
    (hwf : ∀ rs1 rs2 imm, (mk rs1 rs2 imm).wellFormed = true := by intros; rfl)
    (hword : ∀ rs1 rs2 imm, encode (mk rs1 rs2 imm) = packS imm rs2 rs1 funct3 0b0100011#7 := by intros; rfl)
    (hexec : ∀ rs1 rs2 imm s, exec (mk rs1 rs2 imm) s = execStore sz rs1 rs2 imm s := by intros; rfl) :
    storeOp m sz.bytes funct3 mk := by
  intro s rs1 rs2 imm
  refine ⟨spelled_of_encode ?_ (hwf rs1 rs2 imm) (hword rs1 rs2 imm), toNat_effAddr s rs1 imm, fun halign hallowed => ?_,
    fun halign hdenied => ?_⟩
  · rw [hasm, asmStore, imm12Of_toInt, Option.map_some]
  · have hstore := execStore_of_writable (rs2 := rs2) halign (State.writable_iff.2 hallowed)
    refine ⟨_, (hexec rs1 rs2 imm s).trans hstore, fun r => rfl, pcAdvanced_setPc_nextPc s _, ⟨rfl, rfl⟩, fun k hk => ?_,
      fun a ha => ?_⟩
    · exact read_writeSized_low s.mem _ sz (s.reg rs2) hk
    · exact s.mem.read_writeSized_outside _ ha
  · rw [hexec, execStore_of_denied halign (State.writable_eq_false_iff.2 hdenied)]

theorem storeMisaligned_of_execStore {mk : RegIdx → RegIdx → BitVec 12 → Instr} (sz : AccessSize)
    (hexec : ∀ rs1 rs2 imm s, exec (mk rs1 rs2 imm) s = execStore sz rs1 rs2 imm s := by intros; rfl) :
    storeMisaligned sz.bytes mk := by
  intro s rs1 rs2 imm h
  rw [hexec, execStore_of_misaligned h]

/-! ### The instructions -/

/-- Settles O26: every address is a multiple of 1, so a byte access has no misaligned case (R164). -/
theorem storeByteWritesOneByte : Obligations.StoreByteWritesOneByte := by
  unfold Obligations.StoreByteWritesOneByte
  exact storeOp_of_execStore .byte

/-- Settles O27: a halfword is the width of two bytes, misaligned at odd addresses. -/
theorem storeHalfWritesTwoBytes : Obligations.StoreHalfWritesTwoBytes := by
  unfold Obligations.StoreHalfWritesTwoBytes
  exact ⟨storeOp_of_execStore .half, storeMisaligned_of_execStore .half⟩

/-- Settles O28: a word is the width of all four bytes of the register. -/
theorem storeWordWritesFourBytes : Obligations.StoreWordWritesFourBytes := by
  unfold Obligations.StoreWordWritesFourBytes
  exact ⟨storeOp_of_execStore .word, storeMisaligned_of_execStore .word⟩

end Sys2Proof.Machine
end

section
/-! The branches (spec/44_branches.md R170 to R179): what the six share is proved once, for any condition; each branch is then
the condition that it tests. -/

namespace Sys2Proof.Machine
open Sys2Proof.Claims

/-! ### What the family shares (R98, R170, R171) -/

theorem execBranch_of_misaligned {cond : Word → Word → Bool} {rs1 rs2 : RegIdx} {imm : BitVec 13} {s : State}
    (hcond : cond (s.reg rs1) (s.reg rs2) = true) (hmis : (s.pc + sx imm).toNat % 4 ≠ 0) :
    execBranch cond rs1 rs2 imm s = .fault (.instrAddrMisaligned s.pc (s.pc + sx imm)) := by
  rw [execBranch, if_pos hcond, branchTarget_eq, jumpTo_of_misaligned (mt (lowBits_eq_zero_iff _).1 hmis)]

/-- A branch whose test says `P` of its two registers: it moves the pc alone, or the target faults. That its operands, its word
and its meaning are those of the family is read off the definitions, the same way for each of the six. -/
theorem branchOp_of_execBranch {m : Mnemonic} {funct3 : BitVec 3} {mk : RegIdx → RegIdx → BitVec 13 → Instr}
    {cond : Word → Word → Bool} {P : Word → Word → Prop} (hcond : ∀ a b, cond a b = true ↔ P a b)
    (hasm : ∀ pc, assemble pc m = asmBranch pc mk := by intros; rfl)
    (hwf : ∀ rs1 rs2 imm, (mk rs1 rs2 imm).wellFormed = branchOffsetOk imm := by intros; rfl)
    (hword : ∀ rs1 rs2 imm, encode (mk rs1 rs2 imm) = packB imm rs2 rs1 funct3 0b1100011#7 := by intros; rfl)
    (hexec : ∀ rs1 rs2 imm s, exec (mk rs1 rs2 imm) s = execBranch cond rs1 rs2 imm s := by intros; rfl) :
    branchOp m funct3 mk P := by
  intro s rs1 rs2 imm heven
  have hok : (mk rs1 rs2 imm).wellFormed = true := by rw [hwf, branchOffsetOk, heven, Bool.not_false]
  refine ⟨spelled_of_encode ?_ hok (hword rs1 rs2 imm), fun hP => ?_, fun hP halign => ?_, fun hP hmis => ?_⟩
  · rw [hasm, asmBranch, immBOf_distanceTo s.pc heven, Option.map_some]
  · exact movesOnlyPc_of_setPc ((hexec ..).trans (execBranch_of_not_taken imm (mt (hcond _ _).1 hP)))
  · exact movesOnlyPc_of_setPc ((hexec ..).trans (execBranch_of_taken ((hcond _ _).2 hP) halign))
  · exact (hexec ..).trans (execBranch_of_misaligned ((hcond _ _).2 hP) hmis)

/-! ### The instructions -/

/-- Settles O30: the two tests are equality of the words and its negation. -/
theorem branchOnEquality : Obligations.BranchOnEquality := by
  unfold Obligations.BranchOnEquality
  exact ⟨branchOp_of_execBranch condEq_iff, branchOp_of_execBranch condNe_iff⟩

/-- Settles O31: the two tests are the order of the signed numbers and its negation. -/
theorem branchOnSignedOrder : Obligations.BranchOnSignedOrder := by
  unfold Obligations.BranchOnSignedOrder
  exact ⟨branchOp_of_execBranch condLt_iff, branchOp_of_execBranch condGe_iff⟩

/-- Settles O32: the two tests are the order of the unsigned numbers and its negation. -/
theorem branchOnUnsignedOrder : Obligations.BranchOnUnsignedOrder := by
  unfold Obligations.BranchOnUnsignedOrder
  exact ⟨branchOp_of_execBranch condLtu_iff, branchOp_of_execBranch condGeu_iff⟩

end Sys2Proof.Machine
end

section
/-! The upper immediates (spec/45_upper_imm.md R190 to R193): LUI and AUIPC, and the pairs in which an I-format instruction adds
the low part of a constant or of a distance to what they leave in the register. -/

namespace Sys2Proof.Machine
open Sys2Proof.Claims

/-! ### The two instructions (R190, R191) -/

/-- A U-format instruction's operands and word stand for it; that they are those of the format is read off the definitions. -/
theorem spelled_of_upperImm (pc : Word) {m : Mnemonic} {op : BitVec 7} {mk : RegIdx → BitVec 20 → Instr} (rd : RegIdx)
    (imm : BitVec 20) (hasm : assemble pc m = asmU mk := by rfl) (hwf : (mk rd imm).wellFormed = true := by rfl)
    (hword : encode (mk rd imm) = packU imm rd op := by rfl) :
    spelled pc m [.reg rd, .num imm.toNat] (imm ++ rd ++ op) (mk rd imm) := by
  refine spelled_of_encode ?_ hwf hword
  rw [hasm, asmU, imm20Of_toNat, Option.map_some]

/-- Twelve zeros below the operand multiply it by 2^12. -/
theorem toNat_upperImm (imm : BitVec 20) : (upperImm imm).toNat = imm.toNat * 2 ^ 12 := by
  rw [upperImm, BitVec.toNat_append, BitVec.toNat_zero, Nat.or_zero, Nat.shiftLeft_eq]

theorem exec_auipc (s : State) (rd : RegIdx) (imm : BitVec 20) :
    exec (.auipc rd imm) s = retire s rd (s.pc + upperImm imm) := rfl

/-- Settles O33: LUI retires with the operand above twelve zeros. -/
theorem luiLoadsUpperImmediate : Obligations.LuiLoadsUpperImmediate := by
  unfold Obligations.LuiLoadsUpperImmediate
  intro s rd imm
  exact ⟨spelled_of_upperImm s.pc rd imm, writesOnlyRd_of_retire (exec_lui s rd imm) (toNat_upperImm imm)⟩

/-- Settles O34: AUIPC retires with the sum of its own pc and the operand above twelve zeros. -/
theorem auipcAddsToOwnAddress : Obligations.AuipcAddsToOwnAddress := by
  unfold Obligations.AuipcAddsToOwnAddress
  intro s rd imm
  refine ⟨spelled_of_upperImm s.pc rd imm, writesOnlyRd_of_retire (exec_auipc s rd imm) ?_⟩
  rw [BitVec.toNat_add, toNat_upperImm]

/-! ### A pair that ends in ADDI (R192, R193) -/

/-- The second instruction of a pair reads from the base register what the first has left there. -/
theorem reg_base_of_pair (s : State) {base : RegIdx} (hbase : base ≠ 0#5) (u pc : Word) :
    ((s.setReg base u).setPc pc).reg base = u := by
  rw [State.reg_setPc, State.reg_setReg, if_pos ⟨rfl, hbase⟩]

/-- An instruction that leaves the upper part in rd, then ADDI of the low part to it. -/
theorem seqWritesOnlyRd_of_retire_addi {i : Instr} {s : State} {rd : RegIdx} {u v : Word} {imm : BitVec 12} (hrd : rd ≠ 0#5)
    (hi : exec i s = retire s rd u) (hsum : u + signExt12 imm = v) : seqWritesOnlyRd [i, .addi rd rd imm] s rd v := by
  refine seqWritesOnlyRd_of_retire_retire hi ?_
  rw [exec_addi, reg_base_of_pair s hrd, hsum]

/-- Settles O38: the operand of LUI is the constant less its sign-extended low part, which ADDI adds again. -/
theorem luiAddiBuildsAnyConstant : Obligations.LuiAddiBuildsAnyConstant := by
  unfold Obligations.LuiAddiBuildsAnyConstant
  rintro s rd c _ _ hrd rfl rfl
  exact seqWritesOnlyRd_of_retire_addi hrd (exec_lui s rd (hi20 c)) (upperImm_hi20_add c)

/-! ### A pair that ends in JALR (R193, R201) -/

/-- JALR goes to a sum that is a multiple of 4 as it is: clearing bit 0 changes nothing (R201). -/
theorem exec_jalr_of_aligned {s : State} (rd : RegIdx) {rs1 : RegIdx} {imm : BitVec 12} {a : Word}
    (hsum : s.reg rs1 + signExt12 imm = a) (halign : a.toNat % 4 = 0) :
    exec (.jalr rd rs1 imm) s = .next ((s.setReg rd s.nextPc).setPc a) := by
  have htarget : jalrTarget s rs1 imm = a := by
    refine BitVec.eq_of_toNat_eq ?_
    rw [jalrTarget, toNat_clearBit0, hsum]
    omega
  rw [exec, execJalr, htarget, execJump_of_aligned rd s halign]

/-- An instruction that leaves the upper part in the base register, then JALR to the sum with the low part: the base is written,
then the address after the pair goes to rd and the sum to the pc. -/
theorem execSeq_of_retire_jalr {i : Instr} {s : State} {base : RegIdx} (rd : RegIdx) {u a : Word} {imm : BitVec 12}
    (hbase : base ≠ 0#5) (hi : exec i s = retire s base u) (hsum : u + signExt12 imm = a) (halign : a.toNat % 4 = 0) :
    execSeq [i, .jalr rd base imm] s = .next (((s.setReg base u).setReg rd (s.pc + 8#32)).setPc a) := by
  have hread : ((s.setReg base u).setPc s.nextPc).reg base + signExt12 imm = a := by rw [reg_base_of_pair s hbase, hsum]
  have hlink : ((s.setReg base u).setPc s.nextPc).nextPc = s.pc + 8#32 := BitVec.add_assoc s.pc 4#32 4#32
  rw [execSeq, hi, retire_eq]
  dsimp only
  rw [execSeq, exec_jalr_of_aligned rd hread halign, hlink]
  rfl

/-! ### The pairs that start with AUIPC (R97, R193) -/

/-- The two parts of the distance, added to the pc, give the address. -/
theorem pc_add_parts_of_distance (pc a : Word) :
    pc + upperImm (hi20 (a - pc)) + signExt12 (lo12 (a - pc)) = a := by
  rw [BitVec.add_assoc, upperImm_hi20_add, BitVec.add_comm, BitVec.sub_add_cancel]

/-- AUIPC and JALR by one base register, as `call` and `tail` use them. -/
theorem execSeq_auipc_jalr (s : State) {base : RegIdx} (hbase : base ≠ 0#5) (rd : RegIdx) {a : Word}
    (halign : a.toNat % 4 = 0) :
    execSeq [.auipc base (hi20 (a - s.pc)), .jalr rd base (lo12 (a - s.pc))] s =
      .next (((s.setReg base (s.pc + upperImm (hi20 (a - s.pc)))).setReg rd (s.pc + 8#32)).setPc a) :=
  execSeq_of_retire_jalr rd hbase (exec_auipc s base _) (pc_add_parts_of_distance s.pc a) halign

/-- Settles O39: each expansion is AUIPC of the distance's upper part, then ADDI or JALR of its low part. -/
theorem auipcPairReachesAnyAddress : Obligations.AuipcPairReachesAnyAddress := by
  unfold Obligations.AuipcPairReachesAnyAddress
  intro s rd a
  refine ⟨fun hrd => ⟨_, rfl, ?la⟩, fun halign => ?call, fun halign => ?tail⟩
  case la => exact seqWritesOnlyRd_of_retire_addi hrd (exec_auipc s rd _) (pc_add_parts_of_distance s.pc a)
  case call =>
    refine ⟨_, _, rfl, execSeq_auipc_jalr s (base := 1#5) (by decide) 1#5 halign, rfl, fun r => ?_, fun _ => rfl, rfl, rfl⟩
    rw [State.reg_setPc, State.reg_setReg, State.reg_setReg]
    split <;> rfl
  case tail =>
    refine ⟨_, _, rfl, execSeq_auipc_jalr s (base := 6#5) (by decide) 0#5 halign, rfl, fun r hr => ?_, fun _ => rfl, rfl, rfl⟩
    rw [State.reg_setPc, State.setReg_zero, State.reg_setReg, if_neg fun h => hr h.1]

end Sys2Proof.Machine
end

section
/-! The jumps (spec/46_jumps.md R200 to R203): what JAL and JALR share is proved once, for any target; each is then the number of
its target. -/

namespace Sys2Proof.Machine
open Sys2Proof.Claims

/-! ### What the two share (R202) -/

theorem execJump_of_misaligned (rd : RegIdx) {target : Word} (s : State) (hmis : target.toNat % 4 ≠ 0) :
    execJump rd target s = .fault (.instrAddrMisaligned s.pc target) := by
  rw [execJump, jumpTo_of_misaligned (mt (lowBits_eq_zero_iff _).1 hmis)]

/-- A jump to a multiple of 4 writes the link and the pc, and nothing else. -/
theorem exists_next_of_execJump {i : Instr} {s : State} {rd : RegIdx} {target : Word} (hexec : exec i s = execJump rd target s)
    (halign : target.toNat % 4 = 0) :
    ∃ t, exec i s = .next t ∧ t.pc = target ∧ registersAfter s t rd (s.pc + 4#32) ∧ sameMemory s t ∧ sameParameters s t := by
  refine ⟨_, hexec.trans (execJump_of_aligned rd s halign), rfl, fun r => ?_, fun a => rfl, rfl, rfl⟩
  rw [State.reg_setPc, State.reg_setReg, State.nextPc]

/-! ### The operands and the words (R96, R98) -/

theorem spelled_jal (pc : Word) (rd : RegIdx) {imm : BitVec 21} (heven : imm.getLsbD 0 = false) :
    spelled pc .JAL [.reg rd, .label (pc + sx imm)]
      (imm.extractLsb' 20 1 ++ imm.extractLsb' 1 10 ++ imm.extractLsb' 11 1 ++ imm.extractLsb' 12 8 ++ rd ++ 0b1101111#7)
      (.jal rd imm) := by
  refine spelled_of_encode ?_ ?_ rfl
  · rw [assemble, asmJ, immJOf_distanceTo pc heven, Option.map_some]
  · rw [Instr.wellFormed, jumpOffsetOk, heven, Bool.not_false]

theorem spelled_jalr (pc : Word) (rd rs1 : RegIdx) (imm : BitVec 12) :
    spelled pc .JALR [.reg rd, .mem imm.toInt rs1] (imm ++ rs1 ++ 0b000#3 ++ rd ++ 0b1100111#7) (.jalr rd rs1 imm) := by
  refine spelled_of_encode ?_ rfl rfl
  rw [assemble, asmLoad, imm12Of_toInt, Option.map_some]

/-! ### The targets (R200, R201) -/

theorem exec_jal (s : State) (rd : RegIdx) (imm : BitVec 21) : exec (.jal rd imm) s = execJump rd (s.pc + sx imm) s := rfl

theorem exec_jalr (s : State) (rd rs1 : RegIdx) (imm : BitVec 12) :
    exec (.jalr rd rs1 imm) s = execJump rd (jalrTarget s rs1 imm) s := rfl

/-- Bit 0 of the target is clear, so bit 1 of the sum alone decides. -/
theorem jalrTarget_aligned_iff (s : State) (rs1 : RegIdx) (imm : BitVec 12) :
    (jalrTarget s rs1 imm).toNat % 4 = 0 ↔ (s.reg rs1 + sx imm).getLsbD 1 = false := by
  rw [toNat_jalrTarget, BitVec.getLsbD, Nat.testBit_eq_decide_div_mod_eq, decide_eq_false_iff_not]
  omega

/-! ### The instructions -/

/-- Settles O35: the target is the sum itself. -/
theorem jalLinksAndJumps : Obligations.JalLinksAndJumps := by
  unfold Obligations.JalLinksAndJumps
  intro s rd imm heven
  refine ⟨spelled_jal s.pc rd heven, fun halign => ?aligned, fun hmis => ?misaligned⟩
  case aligned => exact exists_next_of_execJump (exec_jal s rd imm) halign
  case misaligned => exact (exec_jal s rd imm).trans (execJump_of_misaligned rd s hmis)

/-- Settles O36: the target is the sum rounded down to an even number, of x[rs1] as it was before rd is written. -/
theorem jalrLinksAndJumps : Obligations.JalrLinksAndJumps := by
  unfold Obligations.JalrLinksAndJumps
  intro s rd rs1 imm
  have htarget := toNat_jalrTarget s rs1 imm
  refine ⟨spelled_jalr s.pc rd rs1 imm, fun hclear => ?clear, fun hset => ⟨jalrTarget s rs1 imm, htarget, ?set⟩⟩
  case clear =>
    have halign := (jalrTarget_aligned_iff s rs1 imm).2 hclear
    obtain ⟨t, hnext, hpc, hframe⟩ := exists_next_of_execJump (exec_jalr s rd rs1 imm) halign
    exact ⟨t, hnext, (congrArg BitVec.toNat hpc).trans htarget, hframe⟩
  case set =>
    have hmis : (jalrTarget s rs1 imm).toNat % 4 ≠ 0 := mt (jalrTarget_aligned_iff s rs1 imm).1 (by simp [hset])
    exact (exec_jalr s rd rs1 imm).trans (execJump_of_misaligned rd s hmis)

/-! ### A call and its return (R203) -/

/-- A completed JAL leaves the address of the next instruction in its link register. -/
theorem reg_link_of_jal {s t : State} {rd : RegIdx} {imm : BitVec 21} (hrd : rd ≠ 0#5) (h : exec (.jal rd imm) s = .next t) :
    t.reg rd = s.nextPc := by
  obtain ⟨-, rfl⟩ := jumpTo_next ((exec_jal s rd imm).symm.trans h)
  exact reg_base_of_pair s hrd s.nextPc _

/-- JALR x0, 0(rs1) to a multiple of 4 writes the pc alone: its link goes to x0. -/
theorem movesOnlyPc_jalr_zero {s : State} {rs1 : RegIdx} (halign : (s.reg rs1).toNat % 4 = 0) :
    movesOnlyPc (.jalr 0#5 rs1 0#12) s (s.reg rs1) := by
  refine movesOnlyPc_of_setPc ?_
  rw [exec_jalr_of_aligned 0#5 (BitVec.add_zero _) halign, State.setReg_zero]

/-- Settles O37: x1 holds the address after the call, which is aligned as the call is. -/
theorem returnComesBackAfterTheCall : Obligations.ReturnComesBackAfterTheCall := by
  unfold Obligations.ReturnComesBackAfterTheCall
  intro s t u imm halign hcall hkept
  have hlink : u.reg 1#5 = s.nextPc := hkept.trans (reg_link_of_jal (by decide) hcall)
  have hback : (u.reg 1#5).toNat % 4 = 0 := by
    rw [hlink, ← lowBits_eq_zero_iff]
    exact nextPc_aligned ((lowBits_eq_zero_iff _).2 halign)
  rw [show s.pc + 4#32 = u.reg 1#5 from hlink.symm]
  exact movesOnlyPc_jalr_zero hback

end Sys2Proof.Machine
end

section
/-! The step in the order of R15 (spec/00_scope.md R15), one equation a test; and what an instruction can answer
(spec/60_exceptions.md R210): a next state or a fault that R210 gives it, and never a refusal. -/

namespace Sys2Proof.Machine
open Sys2Proof.Claims

/-! ### The tests of a step -/

section
variable {s : State}

theorem step_of_end (hend : s.pc = s.endPc) : step s = .refused .runEnded := by
  rw [step, if_pos hend]

theorem step_of_misaligned (hend : s.pc ≠ s.endPc) (hmis : s.pc.toNat % 4 ≠ 0) :
    step s = .fault (.instrAddrMisaligned s.pc s.pc) := by
  rw [step, if_neg hend, if_pos (mt (lowBits_eq_zero_iff s.pc).1 hmis)]
  rfl

theorem step_of_not_executable (hend : s.pc ≠ s.endPc) (halign : s.pc.toNat % 4 = 0)
    (hcode : s.executable s.pc.toNat 4 = false) : step s = .fault (.instrAccessFault s.pc) := by
  have hlow : s.pc.extractLsb' 0 2 = 0b00#2 := (lowBits_eq_zero_iff s.pc).2 halign
  rw [step, if_neg hend, if_neg (not_not.2 hlow), fetch_of_absent hcode]
  rfl

/-- The four bytes at the pc tell the fetched word (R43, R47). -/
theorem fetch_of_leWord {w : Word} (hcode : ∀ k, k < 4 → s.inCode (s.pc.toNat + k) = true)
    (hw : w.toNat = leWord fun k => s.mem.read (s.pc.toNat + k)) : fetch s = .ok w := by
  rw [fetch_of_executable (State.executable_iff.2 hcode)]
  exact congrArg Except.ok (BitVec.eq_of_toNat_eq ((toNat_readSized_word s.mem s.pc.toNat).trans hw.symm))

end

/-- Settles O45, one clause a test of R15. -/
theorem stepTestsInOrder : Obligations.StepTestsInOrder := by
  unfold Obligations.StepTestsInOrder
  intro s
  refine ⟨step_of_end, step_of_misaligned, fun hend halign habsent => ?fetch, fun w e hend halign hcode hw hdec => ?decode,
    fun w i hend halign hcode hw hdec => ?rule⟩
  case fetch => exact step_of_not_executable hend halign (State.executable_eq_false_iff.2 habsent)
  case decode => exact step_illegal hend halign (fetch_of_leWord hcode hw) (by simp [hdec])
  case rule => exact step_eq_exec hend halign (fetch_of_leWord hcode hw) hdec

/-! ### What an instruction can answer -/

/-- The outcome is a next state, or a fault with the property `P`: it is no refusal. -/
inductive NextOrFault (P : Fault → Prop) : Outcome → Prop where
  | next (t : State) : NextOrFault P (.next t)
  | fault {f : Fault} (hf : P f) : NextOrFault P (.fault f)

namespace NextOrFault
variable {P Q : Fault → Prop} {o : Outcome}

theorem mono (h : NextOrFault P o) (hPQ : ∀ f, P f → Q f) : NextOrFault Q o := by
  cases h with
  | next t => exact .next t
  | fault hf => exact .fault (hPQ _ hf)

theorem of_fault {f : Fault} (h : NextOrFault P (.fault f)) : P f := by
  cases h with
  | fault hf => exact hf

theorem ne_refused (h : NextOrFault P o) (r : Refusal) : o ≠ .refused r := by
  cases h <;> exact nofun

end NextOrFault

/-- The table of R210: the faults that the instruction `i` may raise in the state `s`, with the pc that they record. -/
inductive RaisedBy (i : Instr) (s : State) : Fault → Prop where
  | target {target : Word} (hmis : target.toNat % 4 ≠ 0)
      (hi : i.mnemonic ∈ [.BEQ, .BNE, .BLT, .BGE, .BLTU, .BGEU, .JAL, .JALR]) :
      RaisedBy i s (.instrAddrMisaligned s.pc target)
  | loadAlignment (addr : Word) (hi : i.mnemonic ∈ [.LH, .LHU, .LW]) : RaisedBy i s (.loadAddrMisaligned s.pc addr)
  | loadAccess (addr : Word) (hi : i.mnemonic ∈ [.LB, .LBU, .LH, .LHU, .LW]) : RaisedBy i s (.loadAccessFault s.pc addr)
  | storeAlignment (addr : Word) (hi : i.mnemonic ∈ [.SH, .SW]) : RaisedBy i s (.storeAddrMisaligned s.pc addr)
  | storeAccess (addr : Word) (hi : i.mnemonic ∈ [.SB, .SH, .SW]) : RaisedBy i s (.storeAccessFault s.pc addr)

theorem RaisedBy.pcOf_eq {i : Instr} {s : State} {f : Fault} (h : RaisedBy i s f) : f.pcOf = s.pc := by
  cases h <;> rfl

/-- An access of one byte is aligned everywhere, so one that is misaligned is wider. -/
theorem AccessSize.ne_byte_of_misaligned {sz : AccessSize} {a : Nat} (h : a % sz.bytes ≠ 0) : sz ≠ .byte := by
  rintro rfl
  exact h (Nat.mod_one a)

section
variable {i : Instr} {s : State}

theorem jumpTo_answers (hi : i.mnemonic ∈ [.BEQ, .BNE, .BLT, .BGE, .BLTU, .BGEU, .JAL, .JALR]) (u : State) (target : Word) :
    NextOrFault (RaisedBy i s) (jumpTo s u target) := by
  rcases jumpTo_cases s u target with ⟨-, heq⟩ | ⟨hmis, heq⟩ <;> rw [heq]
  · exact .next _
  · exact .fault (.target (mt (lowBits_eq_zero_iff target).2 hmis) hi)

theorem execBranch_answers {cond : Word → Word → Bool} {rs1 rs2 : RegIdx} {imm : BitVec 13}
    (hi : i.mnemonic ∈ [.BEQ, .BNE, .BLT, .BGE, .BLTU, .BGEU, .JAL, .JALR]) :
    NextOrFault (RaisedBy i s) (execBranch cond rs1 rs2 imm s) := by
  rcases execBranch_cases cond rs1 rs2 imm s with ⟨-, heq⟩ | ⟨-, heq⟩ <;> rw [heq]
  · exact jumpTo_answers hi s _
  · exact .next _

theorem execLoad_answers {sz : AccessSize} {ext : BitVec sz.bits → Word} {rd rs1 : RegIdx} {imm : BitVec 12}
    (hi : i.mnemonic ∈ [.LB, .LBU, .LH, .LHU, .LW]) (hwide : sz ≠ .byte → i.mnemonic ∈ [.LH, .LHU, .LW]) :
    NextOrFault (RaisedBy i s) (execLoad sz ext rd rs1 imm s) := by
  rcases execLoad_cases sz ext rd rs1 imm s with ⟨v, -, heq⟩ | ⟨f, hread, heq⟩ <;> rw [heq]
  · exact .next _
  · rcases memRead_error hread with ⟨hmis, rfl⟩ | rfl
    · exact .fault (.loadAlignment _ (hwide (AccessSize.ne_byte_of_misaligned hmis)))
    · exact .fault (.loadAccess _ hi)

theorem execStore_answers {sz : AccessSize} {rs1 rs2 : RegIdx} {imm : BitVec 12}
    (hi : i.mnemonic ∈ [.SB, .SH, .SW]) (hwide : sz ≠ .byte → i.mnemonic ∈ [.SH, .SW]) :
    NextOrFault (RaisedBy i s) (execStore sz rs1 rs2 imm s) := by
  rcases execStore_cases sz rs1 rs2 imm s with ⟨t, -, heq⟩ | ⟨f, hwrite, heq⟩ <;> rw [heq]
  · exact .next _
  · rcases memWrite_error hwrite with ⟨hmis, rfl⟩ | rfl
    · exact .fault (.storeAlignment _ (hwide (AccessSize.ne_byte_of_misaligned hmis)))
    · exact .fault (.storeAccess _ hi)

end

/-- One case a family, as in `exec_next`. -/
theorem exec_answers (i : Instr) (s : State) : NextOrFault (RaisedBy i s) (exec i s) := by
  cases i with
  | add | sub | sll | slt | sltu | xor | srl | sra | or | and | addi | slti | sltiu | xori | ori | andi | slli | srli
  | srai | lui | auipc => exact .next _
  | lb | lh | lw | lbu | lhu => exact execLoad_answers (by simp [Instr.mnemonic]) (by simp [Instr.mnemonic])
  | sb | sh | sw => exact execStore_answers (by simp [Instr.mnemonic]) (by simp [Instr.mnemonic])
  | beq | bne | blt | bge | bltu | bgeu => exact execBranch_answers (by simp [Instr.mnemonic])
  | jal | jalr => exact jumpTo_answers (by simp [Instr.mnemonic]) _ _

/-- Settles O57: the table of R210 read off `RaisedBy`, which has no row for a fault of the fetch or of decoding. -/
theorem faultsByInstruction : Obligations.FaultsByInstruction := by
  unfold Obligations.FaultsByInstruction
  intro i s f h
  have hraised : RaisedBy i s f := (h ▸ exec_answers i s).of_fault
  cases hraised with
  | target hmis hi => exact ⟨rfl, hmis, hi⟩
  | loadAlignment addr hi => exact ⟨rfl, hi⟩
  | loadAccess addr hi => exact ⟨rfl, hi⟩
  | storeAlignment addr hi => exact ⟨rfl, hi⟩
  | storeAccess addr hi => exact ⟨rfl, hi⟩

/-! ### What a step can answer -/

/-- Away from `END_PC` every one of the tests of R15 ends in a next state or in a fault that records the pc. -/
theorem step_answers {s : State} (hend : s.pc ≠ s.endPc) : NextOrFault (fun f => f.pcOf = s.pc) (step s) := by
  by_cases halign : s.pc.toNat % 4 = 0
  · cases hcode : s.executable s.pc.toNat 4 with
    | false =>
      rw [step_of_not_executable hend halign hcode]
      exact .fault rfl
    | true =>
      have hfetch := fetch_of_executable hcode
      cases hdec : decode (s.mem.readSized s.pc.toNat .word) with
      | error e =>
        rw [step_illegal hend halign hfetch (by simp [hdec])]
        exact .fault rfl
      | ok i =>
        rw [step_eq_exec hend halign hfetch hdec]
        exact (exec_answers i s).mono fun f => RaisedBy.pcOf_eq
  · rw [step_of_misaligned hend halign]
    exact .fault rfl

/-- Settles O46: only the first test of R15 refuses. -/
theorem onlyTheEndOfTheRunIsRefused : Obligations.OnlyTheEndOfTheRunIsRefused := by
  unfold Obligations.OnlyTheEndOfTheRunIsRefused
  intro s r
  by_cases hend : s.pc = s.endPc
  · simp [step_of_end hend, hend, eq_comm]
  · simp [(step_answers hend).ne_refused r, hend]

end Sys2Proof.Machine
end

section
/-! The fates of a run (spec/60_exceptions.md R211, R215; spec/70_reset_and_hazards.md R254): one equation of `run` a way that
a run can go, and by induction on the number of steps where it stops and after which completed steps. -/

namespace Sys2Proof.Machine

section
variable {s t : State} {k : Nat}

theorem run_of_end (hend : s.pc = s.endPc) : run k s = .ended s := by
  cases k <;> rw [run, if_pos hend]

theorem run_zero_of_ne (hend : s.pc ≠ s.endPc) : run 0 s = .running s := by
  rw [run, if_neg hend]

theorem run_succ_of_next (hend : s.pc ≠ s.endPc) (hstep : step s = .next t) : run (k + 1) s = run k t := by
  rw [run, if_neg hend, hstep]

theorem run_succ_of_fault {f : Fault} (hend : s.pc ≠ s.endPc) (hstep : step s = .fault f) :
    run (k + 1) s = .faulted f s := by
  rw [run, if_neg hend, hstep]

end

/-- Settles O47, by induction on the number of steps: away from `END_PC` the first step completes or faults. -/
theorem runHasOneOfThreeFates : Obligations.RunHasOneOfThreeFates := by
  unfold Obligations.RunHasOneOfThreeFates
  intro k
  induction k with
  | zero =>
    intro s
    by_cases hend : s.pc = s.endPc
    · exact .inr (.inl ⟨s, run_of_end hend, hend⟩)
    · exact .inl ⟨s, run_zero_of_ne hend, hend⟩
  | succ k ih =>
    intro s
    by_cases hend : s.pc = s.endPc
    · exact .inr (.inl ⟨s, run_of_end hend, hend⟩)
    · cases hstep : step s with
      | next t =>
        rw [run_succ_of_next hend hstep]
        exact ih t
      | fault f => exact .inr (.inr ⟨f, s, run_succ_of_fault hend hstep, hstep⟩)
      | refused r => exact absurd hstep ((step_answers hend).ne_refused r)

/-- A run that faults has not reached `END_PC`, and either its first step is the fault or the run after that step faults. -/
theorem run_faulted_cases {k : Nat} {s t : State} {f : Fault} (h : run k s = .faulted f t) :
    ∃ n, k = n + 1 ∧ s.pc ≠ s.endPc ∧
      ((step s = .fault f ∧ t = s) ∨ ∃ u, step s = .next u ∧ run n u = .faulted f t) := by
  by_cases hend : s.pc = s.endPc
  · cases (run_of_end hend).symm.trans h
  · cases k with
    | zero => cases (run_zero_of_ne hend).symm.trans h
    | succ n =>
      refine ⟨n, rfl, hend, ?_⟩
      cases hstep : step s with
      | next u => exact .inr ⟨u, rfl, (run_succ_of_next hend hstep).symm.trans h⟩
      | fault g =>
        cases (run_succ_of_fault hend hstep).symm.trans h
        exact .inl ⟨rfl, rfl⟩
      | refused r => exact absurd hstep ((step_answers hend).ne_refused r)

/-- Settles O48, by induction on the number of steps. -/
theorem faultedRunKeepsTheStateBefore : Obligations.FaultedRunKeepsTheStateBefore := by
  unfold Obligations.FaultedRunKeepsTheStateBefore
  intro k
  induction k with
  | zero =>
    intro s t f h
    obtain ⟨n, hn, -⟩ := run_faulted_cases h
    cases hn
  | succ k ih =>
    intro s t f h
    obtain ⟨n, hn, hend, hfirst | hlater⟩ := run_faulted_cases h
    · obtain ⟨hstep, rfl⟩ := hfirst
      exact ⟨0, k.succ_pos, rfl, hstep, (hstep ▸ step_answers hend).of_fault⟩
    · obtain ⟨u, hstep, hrun⟩ := hlater
      cases hn
      obtain ⟨j, hj, hreach, hfault⟩ := ih u t f hrun
      exact ⟨j + 1, Nat.succ_lt_succ hj, run_succ_next_iff.2 ⟨u, hstep, hreach⟩, hfault⟩

end Sys2Proof.Machine
end

section
/-! The launch states and the reset state (spec/10_state.md R32; spec/70_reset_and_hazards.md R250): each byte of the initial
memory is read back, and the constraints of R250 give the invariant. -/

namespace Sys2Proof.Machine

/-! ### A memory made of cells -/

theorem Memory.read_foldl_write_of_absent {cells : List Host.Cell} {a : Nat} (h : ∀ c ∈ cells, c.1 ≠ a) (m : Memory) :
    (cells.foldl (fun m c => m.write c.1 c.2) m).read a = m.read a := by
  induction cells generalizing m with
  | nil => rfl
  | cons d cells ih =>
    obtain ⟨hd, hcells⟩ := List.forall_mem_cons.1 h
    rw [List.foldl_cons, ih hcells, Memory.read_write, if_neg (Ne.symm hd)]

theorem Memory.read_foldl_write_of_mem {cells : List Host.Cell} {c : Host.Cell} (hc : c ∈ cells)
    (hdistinct : cells.Pairwise fun d e => d.1 ≠ e.1) (m : Memory) :
    (cells.foldl (fun m c => m.write c.1 c.2) m).read c.1 = c.2 := by
  induction cells generalizing m with
  | nil => cases hc
  | cons d cells ih =>
    obtain ⟨hd, hcells⟩ := List.pairwise_cons.1 hdistinct
    rw [List.foldl_cons]
    rcases List.mem_cons.1 hc with rfl | hc
    · rw [Memory.read_foldl_write_of_absent fun e he => (hd e he).symm, Memory.read_write, if_pos rfl]
    · exact ih hc hcells _

/-- No cell is overwritten where the addresses are distinct. -/
theorem Memory.read_ofCells {cells : List Host.Cell} {c : Host.Cell} (hc : c ∈ cells)
    (hdistinct : cells.Pairwise fun d e => d.1 ≠ e.1) : (Memory.ofCells cells).read c.1 = c.2 :=
  Memory.read_foldl_write_of_mem hc hdistinct []

/-! ### The launch state -/

section
variable (l : LaunchArgs)

@[simp] theorem State.launch_pc : (State.launch l).pc = l.resetPc := rfl
@[simp] theorem State.launch_regs : (State.launch l).regs = l.initX := rfl
@[simp] theorem State.launch_endPc : (State.launch l).endPc = l.endPc := rfl
@[simp] theorem State.launch_map : (State.launch l).map = l.map := rfl

theorem State.launch_mem :
    (State.launch l).mem = Memory.ofCells (l.initMem.filter fun c => (State.launch l).inMem c.1) := rfl

end

section
variable {l : LaunchArgs}

theorem State.read_launch {c : Host.Cell} (hc : c ∈ l.initMem) (hmem : (State.launch l).inMem c.1 = true)
    (hdistinct : l.initMem.Pairwise fun d e => d.1 ≠ e.1) : (State.launch l).mem.read c.1 = c.2 := by
  rw [State.launch_mem]
  exact Memory.read_ofCells (List.mem_filter.2 ⟨hc, hmem⟩) (hdistinct.filter _)

theorem LaunchArgs.ok_iff : l.ok = true ↔
    l.resetPc.extractLsb' 0 2 = 0b00#2 ∧ l.endPc.extractLsb' 0 2 = 0b00#2 ∧
      (State.launch l).executable l.resetPc.toNat 4 = true := by
  simp [LaunchArgs.ok, and_assoc]

/-- Only cells at addresses of `MEM` are written into the initial memory. -/
theorem State.inMem_of_mem_launch {c : Host.Cell} (hc : c ∈ (State.launch l).mem) : (State.launch l).inMem c.1 = true := by
  obtain ⟨d, hd, haddr⟩ := Memory.mem_ofCells hc
  obtain ⟨-, hmem⟩ := List.mem_filter.1 hd
  exact haddr ▸ hmem

theorem State.inv_launch (h : l.ok = true) : (State.launch l).Inv := by
  obtain ⟨hpc, hend, -⟩ := LaunchArgs.ok_iff.1 h
  exact ⟨hpc, hend, Memory.wf_ofCells _, fun c => State.inMem_of_mem_launch⟩

theorem State.exists_fetch_launch (h : l.ok = true) : ∃ w, fetch (State.launch l) = .ok w := by
  obtain ⟨-, -, hcode⟩ := LaunchArgs.ok_iff.1 h
  exact exists_fetch_ok_iff.2 hcode

end

/-- Settles O50. -/
theorem launchStateHoldsItsArguments : Obligations.LaunchStateHoldsItsArguments := by
  unfold Obligations.LaunchStateHoldsItsArguments
  intro l
  exact ⟨State.launch_pc l, State.reg_zero _, State.launch_regs l, State.launch_endPc l, State.launch_map l,
    fun c => State.read_launch, fun h => ⟨State.inv_launch h, State.exists_fetch_launch h⟩⟩

/-! ### The reset state -/

/-- The arguments of which the reset state is the launch state (log entries 2, 3, 4). -/
def exampleArgs : LaunchArgs := ⟨Config.exampleMap, Config.exampleResetPc, Config.exampleEndPc, Config.exampleRegs, []⟩

theorem exampleArgs_ok : exampleArgs.ok = true := by decide

theorem State.reset_eq_launch : State.reset = State.launch exampleArgs := rfl

theorem State.reg_reset (r : RegIdx) : State.reset.reg r = 0#32 := by
  rw [State.reg]
  split
  · rfl
  · exact Vector.getElem_replicate _

/-- Settles O49: the reset state is a launch state and its arguments meet the constraints of R250. -/
theorem resetMeetsInvariant : Obligations.ResetMeetsInvariant := by
  unfold Obligations.ResetMeetsInvariant
  refine ⟨?_, State.reset_eq_launch, State.reg_reset⟩
  rw [State.reset_eq_launch]
  exact State.inv_launch exampleArgs_ok

end Sys2Proof.Machine
end

section
/-! The model's own placing of an instruction word (log entries 6, 11): the placed state is not at `END_PC`, its pc lies in
`CODE`, and the word stands there. -/

namespace Sys2Proof.Machine

section
variable {s : State} {w : Word}

theorem placeInstruction_pc : (placeInstruction s w).pc = s.pc := rfl

theorem placeInstruction_mem : (placeInstruction s w).mem = s.mem.writeSized s.pc.toNat .word w := rfl

theorem nextPc_ne_pc : s.nextPc ≠ s.pc := by
  rw [State.nextPc]
  bv_omega

theorem pc_ne_endPc_placeInstruction : (placeInstruction s w).pc ≠ (placeInstruction s w).endPc := by
  simp only [placeInstruction]
  split
  · exact nextPc_ne_pc.symm
  · exact Ne.symm ‹_›

/-- The first region of the map puts its addresses in `CODE` where it is a code region below 2^32. -/
theorem inCode_of_map_cons {a n k : Nat} {rs : List Region} (hmap : s.map = ⟨a, n, .code⟩ :: rs) (hfits : a + n ≤ 2 ^ 32)
    (hk : k < n) : s.inCode (a + k) = true := by
  have haddr : a + k < 2 ^ 32 := by omega
  simpa [State.inCode, hmap, regionHas, hk] using haddr

theorem executable_placeInstruction (halign : s.pc.toNat % 4 = 0) :
    (placeInstruction s w).executable s.pc.toNat 4 = true := by
  rw [State.executable_iff]
  intro k hk
  cases hcode : s.executable s.pc.toNat 4 with
  | true =>
    have hmap : (placeInstruction s w).map = s.map := by simp [placeInstruction, hcode]
    rw [State.inCode_congr hmap]
    exact State.executable_iff.1 hcode k hk
  | false =>
    have hmap : (placeInstruction s w).map = ⟨s.pc.toNat, 4, .code⟩ :: s.map := by simp [placeInstruction, hcode]
    exact inCode_of_map_cons hmap (by omega) hk

theorem fetch_placeInstruction (halign : s.pc.toNat % 4 = 0) : fetch (placeInstruction s w) = .ok w := by
  rw [fetch_of_executable (executable_placeInstruction halign), placeInstruction_mem, placeInstruction_pc,
    Memory.readSized_writeSized]

theorem withFetchWord_toNat : s.withFetchWord 32 w.toNat = placeInstruction s w := by
  rw [State.withFetchWord, Nat.mod_eq_of_lt w.isLt, BitVec.ofNat_toNat, BitVec.setWidth_eq]

end

/-- Settles O58: each test of R15 passes in the placed state, up to the decoding of the word. -/
theorem placedWordIsTheNextInstruction : Obligations.PlacedWordIsTheNextInstruction := by
  unfold Obligations.PlacedWordIsTheNextInstruction
  intro s w i halign hdec
  rw [withFetchWord_toNat]
  exact step_eq_exec pc_ne_endPc_placeInstruction halign (fetch_placeInstruction halign) hdec

end Sys2Proof.Machine
end

section
/-! Words written out bit by bit (spec/95_test_vectors.md V-DEC, V-IMM). -/

namespace Sys2Proof

/-- Settles O8: closed words, each evaluated by the decoder. -/
theorem writtenOutWordsDecode : Obligations.WrittenOutWordsDecode := by
  unfold Obligations.WrittenOutWordsDecode
  decide

end Sys2Proof
end
